-- ==== Sys2Proof/Word.lean ====
section
/-! DEFINITION. The word and byte types of the machine (rules R4, R6). -/

namespace Sys2Proof

/-- A 16-bit unsigned word: what every register and memory cell holds, and what an address is (rules R6, R11). -/
abbrev Word := BitVec 16

/-- One 8-bit value of the console ports (rules R31, R32). -/
abbrev Byte := BitVec 8

end Sys2Proof
end

