-- ==== Sys2Proof/Syntax.lean ====
section
/-! DEFINITION. The instructions, one constructor for each row of the opcode table, with the operand fields of rules
R10 and R63. Bits that no handler reads (rule R66) are no part of an instruction. -/

namespace Sys2Proof

/-- A general register, as a 3-bit field names it (rules R21, R65). -/
inductive Reg where
  | r0 | r1 | r2 | r3 | r4 | r5 | r6 | r7
deriving DecidableEq, Repr

/-- The sixteen handlers that bits 15..12 select among (rule R62). -/
inductive Opcode where
  | br | add | ld | st | jsr | and | ldr | str | rti | not | ldi | sti | jmp | res | lea | trap
deriving DecidableEq, Repr

/-- The instructions of the opcode table. The seven rows that name some words of JMP or TRAP (RET and the six console
services, rule R72) are constructors of their own (log entry 9). -/
inductive Instr where
  /-- ADD, register mode (rule R100). -/
  | addR (dr sr1 sr2 : Reg)
  /-- ADD, immediate mode (rule R101). -/
  | addI (dr sr1 : Reg) (imm5 : BitVec 5)
  /-- AND, register mode (rule R102). -/
  | andR (dr sr1 sr2 : Reg)
  /-- AND, immediate mode (rule R103). -/
  | andI (dr sr1 : Reg) (imm5 : BitVec 5)
  /-- NOT (rule R104). -/
  | not (dr sr : Reg)
  /-- BR: `cond` is n, z, p from its high bit down (rule R110). -/
  | br (cond : BitVec 3) (offset9 : BitVec 9)
  /-- JMP (rule R111). -/
  | jmp (baseR : Reg)
  /-- JSR (rule R112). -/
  | jsr (offset11 : BitVec 11)
  /-- JSRR (rule R113). -/
  | jsrr (baseR : Reg)
  /-- LD (rule R120). -/
  | ld (dr : Reg) (offset9 : BitVec 9)
  /-- LDI (rule R121). -/
  | ldi (dr : Reg) (offset9 : BitVec 9)
  /-- LDR (rule R122). -/
  | ldr (dr baseR : Reg) (offset6 : BitVec 6)
  /-- LEA (rule R123). -/
  | lea (dr : Reg) (offset9 : BitVec 9)
  /-- ST (rule R130). -/
  | st (sr : Reg) (offset9 : BitVec 9)
  /-- STI (rule R131). -/
  | sti (sr : Reg) (offset9 : BitVec 9)
  /-- STR (rule R132). -/
  | str (sr baseR : Reg) (offset6 : BitVec 6)
  /-- TRAP with any vector (rules R140, R147). -/
  | trap (vector : BitVec 8)
  /-- RTI, opcode 8 (rule R160). -/
  | rti
  /-- The reserved opcode 13 (rule R161). -/
  | reserved
  /-- RET, the words of JMP R7 (rules R72, R111). -/
  | ret
  /-- GETC, TRAP x20 (rule R141). -/
  | getc
  /-- OUT, TRAP x21 (rule R142). -/
  | out
  /-- PUTS, TRAP x22 (rule R143). -/
  | puts
  /-- IN, TRAP x23 (rule R144). -/
  | in_
  /-- PUTSP, TRAP x24 (rule R145). -/
  | putsp
  /-- HALT, TRAP x25 (rule R146). -/
  | halt
deriving DecidableEq, Repr

end Sys2Proof
end

