-- ==== Sys2Proof/WellFormed.lean ====
section
/-! DEFINITION. When a term of `Instr` is the one term of its words. Every field is as wide as its encoding, so the
only ill-formed terms are those whose words the table also gives a row of their own: JMP with base R7, which is RET, and
TRAP with a vector 0x20..0x25, which is a console service (rule R72, log entry 9). They keep their meaning in `exec`. -/

namespace Sys2Proof

/-- The vectors of the six console services (rule R140). -/
def isServiceVector (vector : BitVec 8) : Bool :=
  vector == 0x20 || vector == 0x21 || vector == 0x22 || vector == 0x23 || vector == 0x24 || vector == 0x25

/-- No other constructor stands for the same words. -/
def Instr.wellFormed : Instr → Bool
  | .jmp baseR => baseR != .r7
  | .trap vector => !isServiceVector vector
  | .addR _ _ _ | .addI _ _ _ | .andR _ _ _ | .andI _ _ _ | .not _ _ => true
  | .br _ _ | .jsr _ | .jsrr _ | .ret => true
  | .ld _ _ | .ldi _ _ | .ldr _ _ _ | .lea _ _ => true
  | .st _ _ | .sti _ _ | .str _ _ _ => true
  | .rti | .reserved => true
  | .getc | .out | .puts | .in_ | .putsp | .halt => true

end Sys2Proof
end

