-- ==== Sys2Proof/Decode.lean ====
section
/-! DEFINITION. Decoding a 16-bit word (rule R70) and encoding an instruction (rules R63, R71). Every word is one whole
instruction and none is illegal (rules R60, R67), so the decoder is a total function and rejects nothing. -/

namespace Sys2Proof

/-- The register a 3-bit field names: value i names Ri (rule R65). -/
def Reg.ofBits (b : BitVec 3) : Reg :=
  match b.getLsbD 2, b.getLsbD 1, b.getLsbD 0 with
  | false, false, false => .r0
  | false, false, true => .r1
  | false, true, false => .r2
  | false, true, true => .r3
  | true, false, false => .r4
  | true, false, true => .r5
  | true, true, false => .r6
  | true, true, true => .r7

/-- The 3-bit number of a register (rule R65). -/
def Reg.bits : Reg → BitVec 3
  | .r0 => 0b000#3
  | .r1 => 0b001#3
  | .r2 => 0b010#3
  | .r3 => 0b011#3
  | .r4 => 0b100#3
  | .r5 => 0b101#3
  | .r6 => 0b110#3
  | .r7 => 0b111#3

/-- The handler of an opcode, the table of rule R62 (the numbers are the spec's decision D1, log entry 1). -/
def Opcode.ofBits (b : BitVec 4) : Opcode :=
  match b.getLsbD 3, b.getLsbD 2, b.getLsbD 1, b.getLsbD 0 with
  | false, false, false, false => .br
  | false, false, false, true => .add
  | false, false, true, false => .ld
  | false, false, true, true => .st
  | false, true, false, false => .jsr
  | false, true, false, true => .and
  | false, true, true, false => .ldr
  | false, true, true, true => .str
  | true, false, false, false => .rti
  | true, false, false, true => .not
  | true, false, true, false => .ldi
  | true, false, true, true => .sti
  | true, true, false, false => .jmp
  | true, true, false, true => .res
  | true, true, true, false => .lea
  | true, true, true, true => .trap

/-- The opcode number of a handler (rule R62). -/
def Opcode.bits : Opcode → BitVec 4
  | .br => 0x0#4
  | .add => 0x1#4
  | .ld => 0x2#4
  | .st => 0x3#4
  | .jsr => 0x4#4
  | .and => 0x5#4
  | .ldr => 0x6#4
  | .str => 0x7#4
  | .rti => 0x8#4
  | .not => 0x9#4
  | .ldi => 0xA#4
  | .sti => 0xB#4
  | .jmp => 0xC#4
  | .res => 0xD#4
  | .lea => 0xE#4
  | .trap => 0xF#4

/-- The handler of an instruction word, from ir[15:12] (rules R10, R61). -/
def opcodeOf (ir : Word) : Opcode := Opcode.ofBits (ir.extractLsb' 12 4)

/-- The register named by the three bits of `ir` from bit `lo` up (rule R10). -/
def regField (ir : Word) (lo : Nat) : Reg := Reg.ofBits (ir.extractLsb' lo 3)

/-- imm5 = ir[4:0] (rule R10). -/
def imm5Field (ir : Word) : BitVec 5 := ir.extractLsb' 0 5

/-- offset6 = ir[5:0], all six bits (rule R10; the mask is 0x3F, conflict C2). -/
def offset6Field (ir : Word) : BitVec 6 := ir.extractLsb' 0 6

/-- offset9 = ir[8:0] (rule R10). -/
def offset9Field (ir : Word) : BitVec 9 := ir.extractLsb' 0 9

/-- offset11 = ir[10:0], all eleven bits (rule R10, conflict C1). -/
def offset11Field (ir : Word) : BitVec 11 := ir.extractLsb' 0 11

/-- cond = ir[11:9] (rule R10). -/
def condField (ir : Word) : BitVec 3 := ir.extractLsb' 9 3

/-- vector = ir[7:0] (rule R10). -/
def vectorField (ir : Word) : BitVec 8 := ir.extractLsb' 0 8

/-- The instruction of a TRAP vector: a console service under its own name, or TRAP itself (rules R72, R140). -/
def decodeVector (vector : BitVec 8) : Instr :=
  if vector = 0x20 then .getc
  else if vector = 0x21 then .out
  else if vector = 0x22 then .puts
  else if vector = 0x23 then .in_
  else if vector = 0x24 then .putsp
  else if vector = 0x25 then .halt
  else .trap vector

/-- JMP through its base register, RET when that is R7 (rules R72, R111). -/
def decodeJump (baseR : Reg) : Instr :=
  if baseR = .r7 then .ret else .jmp baseR

/-- The instruction of a word (rule R70). -/
def decode (ir : Word) : Instr :=
  match opcodeOf ir with
  | .br => .br (condField ir) (offset9Field ir)
  | .add =>
    if ir.getLsbD 5 then .addI (regField ir 9) (regField ir 6) (imm5Field ir)
    else .addR (regField ir 9) (regField ir 6) (regField ir 0)
  | .ld => .ld (regField ir 9) (offset9Field ir)
  | .st => .st (regField ir 9) (offset9Field ir)
  | .jsr => if ir.getLsbD 11 then .jsr (offset11Field ir) else .jsrr (regField ir 6)
  | .and =>
    if ir.getLsbD 5 then .andI (regField ir 9) (regField ir 6) (imm5Field ir)
    else .andR (regField ir 9) (regField ir 6) (regField ir 0)
  | .ldr => .ldr (regField ir 9) (regField ir 6) (offset6Field ir)
  | .str => .str (regField ir 9) (regField ir 6) (offset6Field ir)
  | .rti => .rti
  | .not => .not (regField ir 9) (regField ir 6)
  | .ldi => .ldi (regField ir 9) (offset9Field ir)
  | .sti => .sti (regField ir 9) (offset9Field ir)
  | .jmp => decodeJump (regField ir 6)
  | .res => .reserved
  | .lea => .lea (regField ir 9) (offset9Field ir)
  | .trap => decodeVector (vectorField ir)

/-- A field in its place: bit 0 of `f` is bit `lo` of the word (rule R5). -/
def place {n : Nat} (lo : Nat) (f : BitVec n) : Word := f.setWidth 16 <<< lo

/-- Formats PC9 and BR: opcode, three bits, offset9 (rule R63). -/
def encodePc9 (op : Opcode) (b : BitVec 3) (offset9 : BitVec 9) : Word :=
  place 12 op.bits ||| place 9 b ||| place 0 offset9

/-- Format R3: opcode, DR, SR1, mode 0, SR2 (rule R63). -/
def encodeR3 (op : Opcode) (dr sr1 sr2 : Reg) : Word :=
  place 12 op.bits ||| place 9 dr.bits ||| place 6 sr1.bits ||| place 0 sr2.bits

/-- Format I5: opcode, DR, SR1, mode 1, imm5 (rule R63). -/
def encodeI5 (op : Opcode) (dr sr1 : Reg) (imm5 : BitVec 5) : Word :=
  place 12 op.bits ||| place 9 dr.bits ||| place 6 sr1.bits ||| place 5 1#1 ||| place 0 imm5

/-- Format B6: opcode, DR or SR, BaseR, offset6 (rule R63); format R2 has the same layout. -/
def encodeB6 (op : Opcode) (r baseR : Reg) (offset6 : BitVec 6) : Word :=
  place 12 op.bits ||| place 9 r.bits ||| place 6 baseR.bits ||| place 0 offset6

/-- Formats JR and JRR with mode 0: opcode, BaseR (rule R63). -/
def encodeBase (op : Opcode) (baseR : Reg) : Word := place 12 op.bits ||| place 6 baseR.bits

/-- Format J11: opcode, mode 1, offset11 (rule R63). -/
def encodeJ11 (offset11 : BitVec 11) : Word := place 12 Opcode.jsr.bits ||| place 11 1#1 ||| place 0 offset11

/-- Format T8: opcode, vector (rule R63). -/
def encodeT8 (vector : BitVec 8) : Word := place 12 Opcode.trap.bits ||| place 0 vector

/-- The word of an instruction: 0 in every unread bit, but 111111 in the low bits of NOT (rules R63, R71). -/
def encode : Instr → Word
  | .addR dr sr1 sr2 => encodeR3 .add dr sr1 sr2
  | .addI dr sr1 imm5 => encodeI5 .add dr sr1 imm5
  | .andR dr sr1 sr2 => encodeR3 .and dr sr1 sr2
  | .andI dr sr1 imm5 => encodeI5 .and dr sr1 imm5
  | .not dr sr => encodeB6 .not dr sr 0b111111#6
  | .br cond offset9 => encodePc9 .br cond offset9
  | .jmp baseR => encodeBase .jmp baseR
  | .jsr offset11 => encodeJ11 offset11
  | .jsrr baseR => encodeBase .jsr baseR
  | .ld dr offset9 => encodePc9 .ld dr.bits offset9
  | .ldi dr offset9 => encodePc9 .ldi dr.bits offset9
  | .ldr dr baseR offset6 => encodeB6 .ldr dr baseR offset6
  | .lea dr offset9 => encodePc9 .lea dr.bits offset9
  | .st sr offset9 => encodePc9 .st sr.bits offset9
  | .sti sr offset9 => encodePc9 .sti sr.bits offset9
  | .str sr baseR offset6 => encodeB6 .str sr baseR offset6
  | .trap vector => encodeT8 vector
  | .rti => place 12 Opcode.rti.bits
  | .reserved => place 12 Opcode.res.bits
  | .ret => encodeBase .jmp .r7
  | .getc => encodeT8 0x20#8
  | .out => encodeT8 0x21#8
  | .puts => encodeT8 0x22#8
  | .in_ => encodeT8 0x23#8
  | .putsp => encodeT8 0x24#8
  | .halt => encodeT8 0x25#8

/-- The 16-bit word whose low `nbits` bits are those of `w` and whose other bits are 0 (one word is a whole instruction,
rule R60). -/
def tableWord (nbits w : Nat) : Word := BitVec.ofNat 16 (w % 2 ^ nbits)

/-- The instruction the decoder reads from a row's word. Memory holds whole words (rule R45), so there is no byte order
to undo; no word is refused (rule R67). -/
def decodeTableWord (nbits w : Nat) : Option Instr := some (decode (tableWord nbits w))

end Sys2Proof
end

