-- ==== Sys2Proof/Config.lean ====
section
/-! DEFINITION. What is fixed for one machine and never changes while it runs: the parameters of rule R4. The two
OPEN parameters have no body, so a claim about them holds for every text they may have. -/

namespace Sys2Proof.Config

/-- `MEM_WORDS`: the number of words of memory (rule R4). -/
def memWords : Nat := 65536

/-- `RESET_PC`: the fixed address of the first fetch (rules R4, R191). -/
def resetPc : Word := 0x3000

/-- `in_prompt`, OPEN: the bytes the IN service writes before it reads (rules R4, R144, decision D9; log entry 7). -/
opaque inPrompt : List Byte

/-- `halt_notice`, OPEN: the bytes the HALT service writes (rules R4, R146, decision D10; log entry 7). -/
opaque haltNotice : List Byte

end Sys2Proof.Config
end

