-- ==== Sys2Proof/Machine/State.lean ====
section
/-! DEFINITION. The state of the machine as plain data (rules R20, R30-R32, R36), the reasons a step could stop (there
are none: rule R170), and the state after reset. -/

namespace Sys2Proof.Machine

/-- The general registers R0..R7, none of them hard-wired (rule R21). -/
structure RegFile where
  r0 : Word
  r1 : Word
  r2 : Word
  r3 : Word
  r4 : Word
  r5 : Word
  r6 : Word
  r7 : Word
deriving DecidableEq, Repr

/-- The memory of 65536 words (rule R40), as the words that are not 0x0000: pairs of an address and its word, addresses
strictly rising. An address that is not listed holds 0x0000 (rules R36, R190). A cell is a whole word, because the
machine has no byte addressing (rules R40, R45, R47; log entry 10). -/
abbrev Memory := List (Nat × Word)

/-- The run state (rule R30). -/
inductive RunState where
  | running
  | halted
deriving DecidableEq, Repr

/-- How far the machine is in its cycle. The model's own field: between two steps a cycle is either complete or one of
the two that never complete by themselves (rules R32, R143, R181; log entries 4 and 5). -/
inductive Phase where
  /-- The last cycle is complete; the next step fetches. -/
  | boundary
  /-- The GETC or IN at `pc` has called `InByte()` and waits for a byte (rule R32). -/
  | inputWait
  /-- The PUTS or PUTSP at `pc` finds no zero word in all of memory and never ends (rules R143, R201). -/
  | endlessScan
deriving DecidableEq, Repr

/-- Everything the spec gives the machine, with its two console ports. -/
structure State where
  /-- R0..R7 (rule R21). -/
  regs : RegFile
  /-- The program counter (rule R23). -/
  pc : Word
  /-- COND, a 16-bit slot (rule R24). -/
  cond : Word
  /-- Memory (rule R40). -/
  mem : Memory
  /-- RUNNING or HALTED (rule R30). -/
  run : RunState
  /-- Output bytes not yet flushed, oldest first (rule R31). -/
  obuf : List Byte
  /-- The bytes at the `in_byte` port that are not yet taken, next one first (rule R32; log entry 6). -/
  input : List Byte
  /-- What the `out_byte` and `flush` ports have delivered: one list of bytes for each flush, oldest first
  (rules R31, R35). The model's own record of the ports (log entry 8). -/
  sink : List (List Byte)
  /-- How far the machine is in its cycle. The model's own field (log entry 4). -/
  phase : Phase
deriving DecidableEq, Repr

/-- The faults of a step: none. "The block raises no synchronous exception" (rule R170), and
`93_implementation_defined.md` says that nothing in the block is a fault. -/
inductive Fault where
deriving DecidableEq, Repr

/-- The refusals of a step. -/
inductive Refusal where
  /-- Raised by an arm of `exec` whose instruction has no meaning yet; no arm raises it now. Safe: the model stops where
  the machine would go on. -/
  | notModelled (mnemonic : String)
deriving DecidableEq, Repr

/-- The machine right after reset, before any program image is loaded (rule R36; R0..R7, COND and the output buffer are
the spec's decisions D3, D4 and D14, log entry 3; no input byte has arrived, log entry 6). -/
def State.reset : State where
  regs := ⟨0, 0, 0, 0, 0, 0, 0, 0⟩
  pc := Config.resetPc
  cond := 0
  mem := []
  run := .running
  obuf := []
  input := []
  sink := []
  phase := .boundary

end Sys2Proof.Machine
end

