-- ==== Sys2Proof/Machine/Ops.lean ====
section
/-! DEFINITION. The shared operations over State: registers, memory, the console primitives and services, the fetch and
the end of a cycle. The machine has no exception, interrupt or privilege (rules R170, R172, R177), so there is no
operation that takes an exception and none that returns from one. -/

namespace Sys2Proof.Machine

/-! ### Registers (rules R9, R21) -/

/-- `x[i]`. -/
def RegFile.get (f : RegFile) : Reg → Word
  | .r0 => f.r0
  | .r1 => f.r1
  | .r2 => f.r2
  | .r3 => f.r3
  | .r4 => f.r4
  | .r5 => f.r5
  | .r6 => f.r6
  | .r7 => f.r7

/-- `x[i] <- v`. -/
def RegFile.set (f : RegFile) (r : Reg) (v : Word) : RegFile :=
  match r with
  | .r0 => { f with r0 := v }
  | .r1 => { f with r1 := v }
  | .r2 => { f with r2 := v }
  | .r3 => { f with r3 := v }
  | .r4 => { f with r4 := v }
  | .r5 => { f with r5 := v }
  | .r6 => { f with r6 := v }
  | .r7 => { f with r7 := v }

/-! ### One update for each field of State -/

/-- Write a general register. -/
def State.withReg (s : State) (r : Reg) (v : Word) : State := { s with regs := s.regs.set r v }

/-- Write PC. -/
def State.withPc (s : State) (v : Word) : State := { s with pc := v }

/-- Write COND. -/
def State.withCond (s : State) (v : Word) : State := { s with cond := v }

/-- Replace memory. -/
def State.withMem (s : State) (m : Memory) : State := { s with mem := m }

/-- Write the run state. -/
def State.withRun (s : State) (r : RunState) : State := { s with run := r }

/-- Replace the output buffer. -/
def State.withObuf (s : State) (bs : List Byte) : State := { s with obuf := bs }

/-- Replace the bytes waiting at the input port. -/
def State.withInput (s : State) (bs : List Byte) : State := { s with input := bs }

/-- Replace the record of what was delivered. -/
def State.withSink (s : State) (d : List (List Byte)) : State := { s with sink := d }

/-- Write the phase of the cycle. -/
def State.withPhase (s : State) (p : Phase) : State := { s with phase := p }

/-- `x[i]` of a state. -/
def State.reg (s : State) (r : Reg) : Word := s.regs.get r

/-! ### Memory (rules R40-R42) -/

/-- What an address that is not listed reads as: memory is zero-initialized (rules R36, R190). -/
def unlistedWord : Word := 0x0000

/-- The word at an address. -/
def Memory.readAt : Memory → Nat → Word
  | [], _ => unlistedWord
  | (b, w) :: m, a => if a = b then w else Memory.readAt m a

/-- Put a word at an address, keeping the canonical form. -/
def Memory.writeAt : Memory → Nat → Word → Memory
  | [], a, v => if v = unlistedWord then [] else [(a, v)]
  | (b, w) :: m, a, v =>
    if a < b then (if v = unlistedWord then (b, w) :: m else (a, v) :: (b, w) :: m)
    else if a = b then (if v = unlistedWord then m else (a, v) :: m)
    else (b, w) :: Memory.writeAt m a v

/-- The canonical form: addresses strictly rise, each below 65536, and no entry holds what an unlisted address reads
as. -/
def Memory.wf (m : Memory) : Bool :=
  decide (m.Pairwise (fun c d => c.1 < d.1)) && m.all (fun c => c.1 < Config.memWords && c.2 != unlistedWord)

/-- `MemRead(a, 1)` (rule R41): a 16-bit address is already taken modulo 65536. -/
def State.memRead (s : State) (a : Word) : Word := Memory.readAt s.mem a.toNat

/-- `MemWrite(a, 1, v)` (rule R42). -/
def State.memWrite (s : State) (a v : Word) : State := s.withMem (Memory.writeAt s.mem a.toNat v)

/-! ### Byte and word fields (rules R7, R8, R45) -/

/-- `sext_N` (rule R7). -/
def sext {n : Nat} (f : BitVec n) : Word := f.signExtend 16

/-- `zext_N` (rule R8). -/
def zext {n : Nat} (f : BitVec n) : Word := f.setWidth 16

/-- The low byte of a word, bits 7..0 (rule R45). -/
def lowByte (w : Word) : Byte := w.extractLsb' 0 8

/-- The high byte of a word, bits 15..8 (rule R45). -/
def highByte (w : Word) : Byte := w.extractLsb' 8 8

/-! ### Console primitives (rules R31, R32) -/

/-- `OutByte` for each byte of a list in turn. -/
def State.outBytes (s : State) (bs : List Byte) : State := s.withObuf (s.obuf ++ bs)

/-- `OutByte(b)`. -/
def State.outByte (s : State) (b : Byte) : State := s.outBytes [b]

/-- `Flush()`: deliver the buffer to the sink and empty it. -/
def State.flush (s : State) : State := (s.withSink (s.sink ++ [s.obuf])).withObuf []

/-- `InByte()`: the first waiting byte and the state without it, or none when no byte waits. -/
def State.inByte (s : State) : Option (Byte × State) :=
  match s.input with
  | [] => none
  | b :: rest => some (b, s.withInput rest)

/-! ### The console services of the trap dispatcher (rules R141-R146) -/

/-- GETC (rule R141). With no byte waiting the cycle does not complete (rule R32, decision D7). -/
def State.serviceGetc (s : State) : State :=
  match s.inByte with
  | none => s.withPhase .inputWait
  | some (b, s') => (s'.withReg .r0 (zext b)).withPhase .boundary

/-- OUT (rule R142). -/
def State.serviceOut (s : State) : State := (s.outByte (lowByte (s.reg .r0))).flush

/-- The words from an address up to the first zero word, the address wrapping after 0xFFFF; none when the first `n`
words are all nonzero (rules R143, R145). -/
def scanWords (m : Memory) : Nat → Word → Option (List Word)
  | 0, _ => none
  | n + 1, a =>
    if Memory.readAt m a.toNat = 0x0000 then some []
    else (scanWords m n (a + 1)).map (Memory.readAt m a.toNat :: ·)

/-- Scan the string at R0 and write what `chars` makes of each word. When no word of memory is zero the scan never ends
(rules R143, R145, decision D8, log entry 5). -/
def State.serviceString (s : State) (chars : Word → List Byte) : State :=
  match scanWords s.mem Config.memWords (s.reg .r0) with
  | none => s.withPhase .endlessScan
  | some ws => (s.outBytes (ws.flatMap chars)).flush

/-- One character for each word: its low byte (rule R143). -/
def charOfWord (w : Word) : List Byte := [lowByte w]

/-- Two characters for each word: the low byte always, the high byte if it is not zero (rule R145, decision D19). -/
def charsOfWord (w : Word) : List Byte :=
  if highByte w = 0 then [lowByte w] else [lowByte w, highByte w]

/-- PUTS (rule R143). -/
def State.servicePuts (s : State) : State := s.serviceString charOfWord

/-- The prompt of IN goes into the output buffer once, also when the cycle waits for its byte (rules R31, R144). -/
def State.promptOnce (s : State) : State :=
  match s.phase with
  | .inputWait => s
  | .boundary | .endlessScan => s.outBytes Config.inPrompt

/-- IN (rule R144). The prompt stays in the buffer while the service waits (decision D14); the byte is zero-extended
(decision D6, log entry 14). -/
def State.serviceIn (s : State) : State :=
  match s.promptOnce.inByte with
  | none => s.promptOnce.withPhase .inputWait
  | some (b, s') => (((s'.outByte b).withReg .r0 (zext b)).flush).withPhase .boundary

/-- PUTSP (rule R145). -/
def State.servicePutsp (s : State) : State := s.serviceString charsOfWord

/-- HALT (rule R146). -/
def State.serviceHalt (s : State) : State := ((s.outBytes Config.haltNotice).flush).withRun .halted

/-! ### The cycle (rule R61) -/

/-- The word at PC (rule R61). -/
def State.fetch (s : State) : Word := s.memRead s.pc

/-- Whether the next step runs a handler: not in HALTED (rule R30), and not while a scan goes on forever (rule R201). -/
def State.issuesCycle (s : State) : Bool := s.run == .running && s.phase != .endlessScan

/-- The state the handler sees: PC already incremented, with wrap (rules R23, R61). -/
def State.beginCycle (s : State) : State := s.withPc (s.pc + 1)

/-- The end of the cycle that fetched at `fetchPc`: a cycle that does not complete never updates PC
(rule R32, test vector GETC-3; log entry 4). -/
def State.endCycle (t : State) (fetchPc : Word) : State :=
  match t.phase with
  | .boundary => t
  | .inputWait | .endlessScan => t.withPc fetchPc

/-! ### The host's side of the ports (rules R35, R202) -/

/-- The host delivers one byte to the `in_byte` port (rule R202). -/
def State.deliver (s : State) (b : Byte) : State := s.withInput (s.input ++ [b])

/-- The `halted` port (rule R35). -/
def State.haltedPort (s : State) : Bool := s.run == .halted

/-- Every byte the sink has received, in order (rule R31). -/
def State.received (s : State) : List Byte := s.sink.flatten

end Sys2Proof.Machine
end

