-- ==== Sys2Proof/Machine/Flags.lean ====
section
/-! DEFINITION. The condition register: its values (rule R24; the numbers are the spec's decision D2, log entry 2), its
update (rule R25) and its test by BR (rule R110). -/

namespace Sys2Proof.Machine

/-- POS. -/
def condPos : Word := 0x0001

/-- ZRO. -/
def condZro : Word := 0x0002

/-- NEG. -/
def condNeg : Word := 0x0004

/-- The flag value of a word (rule R25). -/
def flagOf (v : Word) : Word :=
  if v = 0x0000 then condZro else if v.getLsbD 15 then condNeg else condPos

/-- `SetCC(i)`: set COND from the register as it is now (rule R25). -/
def State.setCC (s : State) (r : Reg) : State := s.withCond (flagOf (s.reg r))

/-- Write a destination register, then `SetCC` on it: the end of each of the seven instructions of rule R26. -/
def State.writeResult (s : State) (dr : Reg) (v : Word) : State := (s.withReg dr v).setCC dr

/-- Whether BR is taken: `(cond & COND) != 0` (rule R110). -/
def State.branchTaken (s : State) (cond : BitVec 3) : Bool := (zext cond &&& s.cond) != 0

end Sys2Proof.Machine
end

