-- ==== Sys2Proof/Machine/Operands.lean ====
section
/-! DEFINITION. The operand forms of the instructions: immediates and effective addresses (rules R43, R64). Every sum
wraps modulo 2^16. `pc` is the incremented PC while a handler runs (rule R61). -/

namespace Sys2Proof.Machine

/-- A PC-relative address, with a 9-bit or an 11-bit offset counted in words (rule R64). -/
def State.pcRelative {n : Nat} (s : State) (offset : BitVec n) : Word := s.pc + sext offset

/-- A base register plus offset6 (rule R64). -/
def State.baseRelative (s : State) (baseR : Reg) (offset6 : BitVec 6) : Word := s.reg baseR + sext offset6

/-- The address in the pointer word at a PC-relative address (rules R121, R131). -/
def State.indirect (s : State) (offset9 : BitVec 9) : Word := s.memRead (s.pcRelative offset9)

end Sys2Proof.Machine
end

