-- ==== Sys2Proof/Machine/Control.lean ====
section
/-! DEFINITION. BR, JMP, RET, JSR and JSRR (`41_control.md`, rules R110-R114). PC is the address of the next
instruction when a handler starts. -/

namespace Sys2Proof.Machine

/-- BR (rule R110). -/
def execBr (cond : BitVec 3) (offset9 : BitVec 9) (s : State) : Host.Outcome State Fault Refusal :=
  .next (if s.branchTaken cond then s.withPc (s.pcRelative offset9) else s)

/-- JMP (rule R111). -/
def execJmp (baseR : Reg) (s : State) : Host.Outcome State Fault Refusal :=
  .next (s.withPc (s.reg baseR))

/-- RET, JMP through R7 (rules R72, R111). -/
def execRet (s : State) : Host.Outcome State Fault Refusal :=
  .next (s.withPc (s.reg .r7))

/-- JSR: the return address goes to R7, without a flag update (rule R112). -/
def execJsr (offset11 : BitVec 11) (s : State) : Host.Outcome State Fault Refusal :=
  .next ((s.withReg .r7 s.pc).withPc (s.pcRelative offset11))

/-- JSRR: the base is read before R7 is written (rule R113). -/
def execJsrr (baseR : Reg) (s : State) : Host.Outcome State Fault Refusal :=
  .next ((s.withReg .r7 s.pc).withPc (s.reg baseR))

end Sys2Proof.Machine
end

