-- ==== Sys2Proof/Machine/Load.lean ====
section
/-! DEFINITION. LD, LDI, LDR and LEA (`42_load.md`, rules R120-R124). -/

namespace Sys2Proof.Machine

/-- LD (rule R120). -/
def execLd (dr : Reg) (offset9 : BitVec 9) (s : State) : Host.Outcome State Fault Refusal :=
  .next (s.writeResult dr (s.memRead (s.pcRelative offset9)))

/-- LDI: the pointer, then the data (rule R121). -/
def execLdi (dr : Reg) (offset9 : BitVec 9) (s : State) : Host.Outcome State Fault Refusal :=
  .next (s.writeResult dr (s.memRead (s.indirect offset9)))

/-- LDR: the base is read before DR is written (rule R122). -/
def execLdr (dr baseR : Reg) (offset6 : BitVec 6) (s : State) : Host.Outcome State Fault Refusal :=
  .next (s.writeResult dr (s.memRead (s.baseRelative baseR offset6)))

/-- LEA: an address, no memory access (rule R123). -/
def execLea (dr : Reg) (offset9 : BitVec 9) (s : State) : Host.Outcome State Fault Refusal :=
  .next (s.writeResult dr (s.pcRelative offset9))

end Sys2Proof.Machine
end

