-- ==== Sys2Proof/Machine/Reserved.lean ====
section
/-! DEFINITION. RTI and the reserved opcode 13: no-ops that keep the fetch increment (`45_reserved.md`, rules R160,
R161). -/

namespace Sys2Proof.Machine

/-- RTI (rule R160). -/
def execRti (s : State) : Host.Outcome State Fault Refusal := .next s

/-- The reserved opcode (rule R161). -/
def execReserved (s : State) : Host.Outcome State Fault Refusal := .next s

end Sys2Proof.Machine
end

