-- ==== Sys2Proof/Machine/Store.lean ====
section
/-! DEFINITION. ST, STI and STR (`43_store.md`, rules R130-R133). No store changes a register, PC or COND. -/

namespace Sys2Proof.Machine

/-- ST (rule R130). -/
def execSt (sr : Reg) (offset9 : BitVec 9) (s : State) : Host.Outcome State Fault Refusal :=
  .next (s.memWrite (s.pcRelative offset9) (s.reg sr))

/-- STI: the pointer is read before the store (rule R131). -/
def execSti (sr : Reg) (offset9 : BitVec 9) (s : State) : Host.Outcome State Fault Refusal :=
  .next (s.memWrite (s.indirect offset9) (s.reg sr))

/-- STR (rule R132). -/
def execStr (sr baseR : Reg) (offset6 : BitVec 6) (s : State) : Host.Outcome State Fault Refusal :=
  .next (s.memWrite (s.baseRelative baseR offset6) (s.reg sr))

end Sys2Proof.Machine
end

