-- ==== Sys2Proof/Machine/Trap.lean ====
section
/-! DEFINITION. TRAP and the six console services (`44_trap.md`, rules R140-R150). A trap is a service call inside its
own cycle: it saves nothing, changes no mode and does not change PC (rules R148, R174). -/

namespace Sys2Proof.Machine

/-- The dispatcher's table; every other vector does nothing (rules R140, R147). -/
def State.trapDispatch (s : State) (vector : BitVec 8) : State :=
  if vector = 0x20 then s.serviceGetc
  else if vector = 0x21 then s.serviceOut
  else if vector = 0x22 then s.servicePuts
  else if vector = 0x23 then s.serviceIn
  else if vector = 0x24 then s.servicePutsp
  else if vector = 0x25 then s.serviceHalt
  else s

/-- TRAP (rules R140, R147). -/
def execTrap (vector : BitVec 8) (s : State) : Host.Outcome State Fault Refusal :=
  .next (s.trapDispatch vector)

/-- GETC (rule R141). -/
def execGetc (s : State) : Host.Outcome State Fault Refusal := .next s.serviceGetc

/-- OUT (rule R142). -/
def execOut (s : State) : Host.Outcome State Fault Refusal := .next s.serviceOut

/-- PUTS (rule R143). -/
def execPuts (s : State) : Host.Outcome State Fault Refusal := .next s.servicePuts

/-- IN (rule R144). -/
def execIn (s : State) : Host.Outcome State Fault Refusal := .next s.serviceIn

/-- PUTSP (rule R145). -/
def execPutsp (s : State) : Host.Outcome State Fault Refusal := .next s.servicePutsp

/-- HALT (rule R146). -/
def execHalt (s : State) : Host.Outcome State Fault Refusal := .next s.serviceHalt

end Sys2Proof.Machine
end

