-- ==== Sys2Proof/Machine/Step.lean ====
section
/-! DEFINITION. One step of the machine: one cycle of the execution loop (rule R61). -/

namespace Sys2Proof.Machine

/-- Fetch the word at PC, increment PC, decode, run one handler. A machine that is HALTED (rule R30) or in a scan that
never ends (rule R201) stays as it is (log entries 5 and 13). -/
def step (s : State) : Host.Outcome State Fault Refusal :=
  if s.issuesCycle then
    match exec (decode s.fetch) s.beginCycle with
    | .next t => .next (t.endCycle s.pc)
    | .fault r => .fault r
    | .refused r => .refused r
  else .next s

/-- `s` with an instruction word where the next step fetches, ready to begin a cycle: the word at PC, the run state
RUNNING and no unfinished cycle (log entry 11). -/
def State.withFetchWord (s : State) (nbits w : Nat) : State :=
  ((s.memWrite s.pc (tableWord nbits w)).withRun .running).withPhase .boundary

end Sys2Proof.Machine
end

