-- ==== Sys2Proof/Machine/Loader.lean ====
section
/-! DEFINITION. The loader's contract at the boundary of the block: the memory it leaves before the first cycle
(`70_reset_and_hazards.md`, rules R190-R195). The file system and the command line are outside the block (rule R3). -/

namespace Sys2Proof.Machine

/-- The big-endian words of an image's bytes; none for an odd number of bytes, which the block refuses (rule R193,
`93_implementation_defined.md` I11). -/
def imageWords : List Byte → Option (List Word)
  | [] => some []
  | [_] => none
  | hi :: lo :: bs => (imageWords bs).map ((hi ++ lo) :: ·)

/-- Copy words into memory from an address on, the address wrapping, later words winning (rule R193). -/
def copyWords : Memory → Word → List Word → Memory
  | m, _, [] => m
  | m, a, w :: ws => copyWords (Memory.writeAt m a.toNat w) (a + 1) ws

/-- Apply one image: word 0 is the origin, the rest is copied there; none for an image without an origin word
(rule R193). -/
def loadImage (m : Memory) (image : List Byte) : Option Memory :=
  match imageWords image with
  | some (origin :: ws) => some (copyWords m origin ws)
  | some [] => none
  | none => none

/-- Apply images in the order given (rule R192, decision D11); none when any of them fails (rule R195). -/
def loadImages : Memory → List (List Byte) → Option Memory
  | m, [] => some m
  | m, image :: images => (loadImage m image).bind (fun m' => loadImages m' images)

/-- The machine before its first cycle, on a given initial memory and input (rules R4, R36, R192). -/
def State.launch (initialMemory : Memory) (input : List Byte) : State :=
  (State.reset.withMem initialMemory).withInput input

/-- Boot from program images; none when no cycle runs: no image was named (rule R194) or one failed to load
(rule R195). -/
def State.boot (images : List (List Byte)) (input : List Byte) : Option State :=
  match images with
  | [] => none
  | _ :: _ => (loadImages State.reset.mem images).map (State.launch · input)

end Sys2Proof.Machine
end

