-- ==== Sys2Proof/Safety.lean ====
section
/-! DEFINITION. The words in which claims are made: what holds between two cycles, and which instructions do what. -/

namespace Sys2Proof.Machine

/-- COND is one of the three flag values (rule R24). -/
def FlagValue (c : Word) : Prop := c = condPos ∨ c = condZro ∨ c = condNeg

/-- COND is a flag value, or still 0x0000 because no flag was ever set (rules R24, R28). -/
def CondLegal (s : State) : Prop := s.cond = 0x0000 ∨ FlagValue s.cond

/-- Exactly the state of the output buffer that rule R31 allows between two steps: empty, unless an IN waits for its
byte with the prompt in the buffer. A cycle waits only at the GETC or IN it has fetched. -/
def ConsoleConsistent (s : State) : Prop :=
  match s.phase with
  | .boundary => s.obuf = []
  | .endlessScan => s.obuf = []
  | .inputWait => (decode s.fetch = .getc ∧ s.obuf = []) ∨ (decode s.fetch = .in_ ∧ s.obuf = Config.inPrompt)

/-- What holds of the machine between two steps. -/
structure Inv (s : State) : Prop where
  /-- Memory is in its canonical form. -/
  mem : Memory.wf s.mem = true
  /-- COND is legal. -/
  cond : CondLegal s
  /-- The output buffer agrees with the phase. -/
  console : ConsoleConsistent s

/-- The instructions of rule R26: DR of those that update COND. -/
def flagDest : Instr → Option Reg
  | .addR dr _ _ | .addI dr _ _ | .andR dr _ _ | .andI dr _ _ | .not dr _ => some dr
  | .ld dr _ | .ldi dr _ | .ldr dr _ _ | .lea dr _ => some dr
  | .br _ _ | .jmp _ | .jsr _ | .jsrr _ | .ret => none
  | .st _ _ | .sti _ _ | .str _ _ _ => none
  | .trap _ | .rti | .reserved => none
  | .getc | .out | .puts | .in_ | .putsp | .halt => none

/-- The general register an instruction may write (rule R22). -/
def destReg : Instr → Option Reg
  | .addR dr _ _ | .addI dr _ _ | .andR dr _ _ | .andI dr _ _ | .not dr _ => some dr
  | .ld dr _ | .ldi dr _ | .ldr dr _ _ | .lea dr _ => some dr
  | .jsr _ | .jsrr _ => some .r7
  | .getc | .in_ => some .r0
  | .trap vector => if vector = 0x20 ∨ vector = 0x23 then some .r0 else none
  | .br _ _ | .jmp _ | .ret => none
  | .st _ _ | .sti _ _ | .str _ _ _ => none
  | .rti | .reserved => none
  | .out | .puts | .putsp | .halt => none

/-- The instructions that write memory (rule R44). -/
def isStore : Instr → Bool
  | .st _ _ | .sti _ _ | .str _ _ _ => true
  | .addR _ _ _ | .addI _ _ _ | .andR _ _ _ | .andI _ _ _ | .not _ _ => false
  | .br _ _ | .jmp _ | .jsr _ | .jsrr _ | .ret => false
  | .ld _ _ | .ldi _ _ | .ldr _ _ _ | .lea _ _ => false
  | .trap _ | .rti | .reserved => false
  | .getc | .out | .puts | .in_ | .putsp | .halt => false

/-- The instructions that may change PC beyond the fetch increment (rule R23). -/
def isTransfer : Instr → Bool
  | .br _ _ | .jmp _ | .jsr _ | .jsrr _ | .ret => true
  | .addR _ _ _ | .addI _ _ _ | .andR _ _ _ | .andI _ _ _ | .not _ _ => false
  | .ld _ _ | .ldi _ _ | .ldr _ _ _ | .lea _ _ => false
  | .st _ _ | .sti _ _ | .str _ _ _ => false
  | .trap _ | .rti | .reserved => false
  | .getc | .out | .puts | .in_ | .putsp | .halt => false

/-- The trap vector of an instruction of opcode 15 (rules R72, R140). -/
def trapVector : Instr → Option (BitVec 8)
  | .trap vector => some vector
  | .getc => some 0x20
  | .out => some 0x21
  | .puts => some 0x22
  | .in_ => some 0x23
  | .putsp => some 0x24
  | .halt => some 0x25
  | .addR _ _ _ | .addI _ _ _ | .andR _ _ _ | .andI _ _ _ | .not _ _ => none
  | .br _ _ | .jmp _ | .jsr _ | .jsrr _ | .ret => none
  | .ld _ _ | .ldi _ _ | .ldr _ _ _ | .lea _ _ => none
  | .st _ _ | .sti _ _ | .str _ _ _ => none
  | .rti | .reserved => none

/-- Every general register but the one named reads as before. -/
def RegsSameBut (r : Reg) (s t : State) : Prop := ∀ q : Reg, q ≠ r → t.reg q = s.reg q

/-- Every general register reads as before. -/
def RegsSame (s t : State) : Prop := ∀ q : Reg, t.reg q = s.reg q

/-- Every word of memory reads as before. -/
def MemSame (s t : State) : Prop := ∀ b : Word, t.memRead b = s.memRead b

/-- Every word of memory but the one named reads as before. -/
def MemSameBut (a : Word) (s t : State) : Prop := ∀ b : Word, b ≠ a → t.memRead b = s.memRead b

/-- The console and the run state are untouched: run, obuf, the two ports and the phase. -/
def ConsoleSame (s t : State) : Prop :=
  t.run = s.run ∧ t.obuf = s.obuf ∧ t.input = s.input ∧ t.sink = s.sink ∧ t.phase = s.phase

/-- The bits of an instruction's words that its handler reads: all but the bits marked `x` in rule R63 (rule R66). -/
def readBits : Instr → Word
  | .addR _ _ _ | .andR _ _ _ => 0xFFE7
  | .addI _ _ _ | .andI _ _ _ => 0xFFFF
  | .not _ _ => 0xFFC0
  | .br _ _ | .jsr _ => 0xFFFF
  | .jmp _ | .ret => 0xF1C0
  | .jsrr _ => 0xF9C0
  | .ld _ _ | .ldi _ _ | .ldr _ _ _ | .lea _ _ => 0xFFFF
  | .st _ _ | .sti _ _ | .str _ _ _ => 0xFFFF
  | .trap _ | .getc | .out | .puts | .in_ | .putsp | .halt => 0xF0FF
  | .rti | .reserved => 0xF000

/-- Word `k` of a program image: `b(2k) * 256 + b(2k+1)` (rule R193). -/
def imageWordAt (image : List Byte) (k : Nat) : Word :=
  BitVec.ofNat 16 ((image.getD (2 * k) 0).toNat * 256 + (image.getD (2 * k + 1) 0).toNat)

/-- Where the loader puts content word `k` of an image, 1 up: `(origin + k - 1) mod 65536` (rule R193). -/
def imageAddress (image : List Byte) (k : Nat) : Nat := ((imageWordAt image 0).toNat + k - 1) % 65536

/-- The address `j` words after another, wrapping (rule R43). -/
def wordsAfter (a : Word) (j : Nat) : Word := a + BitVec.ofNat 16 j

end Sys2Proof.Machine
end

