-- ==== Sys2Proof/Certificates/Slice0/Obligations.lean ====
section
/-! DEFINITION. The statements for the provers. Opcode numbers, the numbers of POS, ZRO and NEG, and other points that
the spec decides itself are named with their log entries where a statement rests on them. -/

open Sys2Proof Sys2Proof.Machine

/-! ### Values and primitives -/

/-- Rule R7. -/
def Obligations.SignExtendCopiesTopBit : Prop :=
  ∀ (n : Nat) (f : BitVec n), 1 ≤ n → n ≤ 16 →
    (∀ i : Nat, i < n → (sext f).getLsbD i = f.getLsbD i) ∧
    (∀ i : Nat, n ≤ i → i < 16 → (sext f).getLsbD i = f.getLsbD (n - 1)) ∧
    (sext f).toInt = (if f.getLsbD (n - 1) then (f.toNat : Int) - 2 ^ n else (f.toNat : Int)) ∧
    (∀ g : Word, sext g = g)

/-- Rule R8. -/
def Obligations.ZeroExtendClearsHighBits : Prop :=
  ∀ (n : Nat) (f : BitVec n), 1 ≤ n → n ≤ 16 →
    (∀ i : Nat, i < n → (zext f).getLsbD i = f.getLsbD i) ∧
    (∀ i : Nat, n ≤ i → i < 16 → (zext f).getLsbD i = false)

/-- Rule R25, with the value read as two's complement. -/
def Obligations.SetCCFollowsSign : Prop :=
  ∀ (s : State) (r : Reg),
    ((s.reg r).toInt = 0 → s.setCC r = s.withCond condZro) ∧
    ((s.reg r).toInt < 0 → s.setCC r = s.withCond condNeg) ∧
    (0 < (s.reg r).toInt → s.setCC r = s.withCond condPos)

/-- Rule R42. That memory is canonical is part of the invariant `Inv`. -/
def Obligations.MemWriteSetsOneWord : Prop :=
  ∀ (s : State) (a v : Word), Memory.wf s.mem = true →
    (s.memWrite a v).memRead a = v ∧ MemSameBut a s (s.memWrite a v) ∧ RegsSame s (s.memWrite a v) ∧
    (s.memWrite a v).pc = s.pc ∧ (s.memWrite a v).cond = s.cond ∧ ConsoleSame s (s.memWrite a v)

/-! ### Reset and boot -/

/-- The table of rule R36. The values of R0..R7, COND and obuf are the spec's decisions D3, D4 and D14 (log entry 3);
that no input byte has arrived is the model's choice (log entry 6). -/
def Obligations.ResetGivesSpecValues : Prop :=
  State.reset.pc = 0x3000 ∧ State.reset.run = .running ∧ (∀ a : Word, State.reset.memRead a = 0x0000) ∧
  (∀ r : Reg, State.reset.reg r = 0x0000) ∧ State.reset.cond = 0x0000 ∧ State.reset.obuf = [] ∧
  State.reset.input = [] ∧ State.reset.sink = [] ∧ State.reset.phase = .boundary

/-- The invariant holds at reset (rules R24, R31, R36; the phase is the model's own, log entry 4). -/
def Obligations.ResetMeetsInvariant : Prop := Inv State.reset

/-- Rule R191: whatever the images are, the first fetch is at 0x3000. -/
def Obligations.BootStartsAtResetPc : Prop :=
  ∀ (images : List (List Byte)) (input : List Byte) (s : State), State.boot images input = some s →
    s.pc = 0x3000 ∧ s.run = .running ∧ s.fetch = s.memRead 0x3000

/-- The machine that boots from images meets the invariant, at a cycle boundary with nothing output and no input byte
taken. Its memory is the zero memory with each image applied in the order given (rule R192, the spec's decisions D11 and
D18, log entry 12; the values of R0..R7, COND and obuf are its decisions D3, D4 and D14, log entry 3; sink and phase are
the model's own, log entries 8 and 4). -/
def Obligations.BootMeetsInvariant : Prop :=
  ∀ (images : List (List Byte)) (input : List Byte) (s : State), State.boot images input = some s →
    Inv s ∧ s.phase = .boundary ∧ s.obuf = [] ∧ s.sink = [] ∧ s.input = input ∧
    s.cond = 0x0000 ∧ (∀ r : Reg, s.reg r = 0x0000) ∧
    ∃ m : Memory, images.foldlM loadImage [] = some m ∧ s.mem = m ∧ s = State.launch m input

/-- No cycle runs when no image is named or one image fails to load (rules R194, R195); from every other list of images
the machine boots (rules R190, R192). That an image fails by having no origin word or an odd number of bytes, and in no
other way, is entry I11 of `93_implementation_defined.md` with the format of rule R193 (log entry 12). -/
def Obligations.BootFailsOnBadImage : Prop :=
  (∀ input : List Byte, State.boot [] input = none) ∧
  (∀ (images : List (List Byte)) (input image : List Byte), image ∈ images →
    (image.length % 2 = 1 ∨ image.length = 0) → State.boot images input = none) ∧
  ∀ (images : List (List Byte)) (input : List Byte), images ≠ [] →
    (∀ image : List Byte, image ∈ images → image.length % 2 = 0 ∧ 2 ≤ image.length) →
    ∃ s : State, State.boot images input = some s

/-- Rule R193: the content words of an image go to consecutive addresses from the origin, wrapping, a later word over an
earlier one at the same address, and no other word changes. -/
def Obligations.ImageCopiedToOrigin : Prop :=
  ∀ (m : Memory) (image : List Byte), Memory.wf m = true → image.length % 2 = 0 → 2 ≤ image.length →
    ∃ m' : Memory, loadImage m image = some m' ∧
      (∀ k : Nat, 1 ≤ k → k < image.length / 2 →
        (∀ j : Nat, k < j → j < image.length / 2 → imageAddress image j ≠ imageAddress image k) →
        Memory.readAt m' (imageAddress image k) = imageWordAt image k) ∧
      (∀ a : Word, (∀ k : Nat, 1 ≤ k → k < image.length / 2 → imageAddress image k ≠ a.toNat) →
        Memory.readAt m' a.toNat = Memory.readAt m a.toNat)

/-! ### The cycle -/

/-- A step runs the instruction at PC with PC already incremented (rule R61). A cycle that does not complete leaves PC at
its instruction, and a machine that is HALTED or in an endless scan stays as it is: how the model shows "no further
step" is its own choice (log entries 4, 5 and 13). -/
def Obligations.StepRunsDecodedInstruction : Prop :=
  (∀ (s t : State) (i : Instr), s.run = .running → s.phase ≠ .endlessScan → decode (s.memRead s.pc) = i →
    exec i (s.withPc (s.pc + 1)) = .next t →
    step s = .next (if t.phase = .boundary then t else t.withPc s.pc)) ∧
  (∀ s : State, s.run = .halted ∨ s.phase = .endlessScan → step s = .next s)

/-- No step faults and none refuses: no word is illegal, no address, arithmetic or trap vector is an error (rules R67,
R170, R171). -/
def Obligations.StepAlwaysAnswersNext : Prop := ∀ s : State, ∃ t : State, step s = .next t

/-- Between two steps memory is canonical, COND is 0x0000 or a flag value, and the output buffer is empty except for the
prompt of an IN that waits (rules R24, R28, R31); the phase is the model's own (log entry 4). -/
def Obligations.StepKeepsInvariant : Prop := ∀ s t : State, Inv s → step s = .next t → Inv t

/-- Rule R30. That a HALTED machine's step answers the same state is the model's way to show that no cycle is issued (log
entry 13). -/
def Obligations.HaltedOnlyByHaltAndTerminal : Prop :=
  State.reset.run = .running ∧
  (∀ s t : State, step s = .next t → s.run = .running → t.run = .halted → decode s.fetch = .halt) ∧
  (∀ (k : Nat) (s : State), s.run = .halted → Host.Core.run core k s = .next s)

/-! ### Encoding -/

/-- Decoding the word of a well-formed instruction gives it back (rules R63, R70, R71; the opcode numbers are the spec's
decision D1, log entry 1). -/
def Obligations.DecodeEncodeRoundTrip : Prop := ∀ i : Instr, i.wellFormed = true → decode (encode i) = i

/-- What a word decodes to is well-formed, and its word has every bit of the given word that a handler reads (rules R66,
R67, R71, log entry 9). -/
def Obligations.EncodeDecodeKeepsReadBits : Prop :=
  ∀ w : Word, (decode w).wellFormed = true ∧ (encode (decode w) ^^^ w) &&& readBits (decode w) = 0

/-- The bits that rule R66 names have no effect (the spec's decision D5, log entry 1). -/
def Obligations.DecodeIgnoresUnreadBits : Prop :=
  ∀ v w : Word, (v ^^^ w) &&& readBits (decode v) = 0 → decode w = decode v

/-- Each row of the opcode table by its match and mask, with its fields (rules R62, R63, R70, R72). The opcode numbers
are the spec's decision D1 (log entry 1). -/
def Obligations.DecodeFollowsOpcodeTable : Prop :=
  ∀ w : Word,
    (w &&& 0xF020 = 0x1000 → decode w = .addR (regField w 9) (regField w 6) (regField w 0)) ∧
    (w &&& 0xF020 = 0x1020 → decode w = .addI (regField w 9) (regField w 6) (imm5Field w)) ∧
    (w &&& 0xF020 = 0x5000 → decode w = .andR (regField w 9) (regField w 6) (regField w 0)) ∧
    (w &&& 0xF020 = 0x5020 → decode w = .andI (regField w 9) (regField w 6) (imm5Field w)) ∧
    (w &&& 0xF000 = 0x9000 → decode w = .not (regField w 9) (regField w 6)) ∧
    (w &&& 0xF000 = 0x0000 → decode w = .br (condField w) (offset9Field w)) ∧
    (w &&& 0xF000 = 0xC000 → w &&& 0xF1C0 ≠ 0xC1C0 → decode w = .jmp (regField w 6)) ∧
    (w &&& 0xF800 = 0x4800 → decode w = .jsr (offset11Field w)) ∧
    (w &&& 0xF800 = 0x4000 → decode w = .jsrr (regField w 6)) ∧
    (w &&& 0xF000 = 0x2000 → decode w = .ld (regField w 9) (offset9Field w)) ∧
    (w &&& 0xF000 = 0xA000 → decode w = .ldi (regField w 9) (offset9Field w)) ∧
    (w &&& 0xF000 = 0x6000 → decode w = .ldr (regField w 9) (regField w 6) (offset6Field w)) ∧
    (w &&& 0xF000 = 0xE000 → decode w = .lea (regField w 9) (offset9Field w)) ∧
    (w &&& 0xF000 = 0x3000 → decode w = .st (regField w 9) (offset9Field w)) ∧
    (w &&& 0xF000 = 0xB000 → decode w = .sti (regField w 9) (offset9Field w)) ∧
    (w &&& 0xF000 = 0x7000 → decode w = .str (regField w 9) (regField w 6) (offset6Field w)) ∧
    (w &&& 0xF000 = 0xF000 → isServiceVector (vectorField w) = false → decode w = .trap (vectorField w)) ∧
    (w &&& 0xF000 = 0x8000 → decode w = .rti) ∧
    (w &&& 0xF000 = 0xD000 → decode w = .reserved) ∧
    (w &&& 0xF1C0 = 0xC1C0 → decode w = .ret) ∧
    (w &&& 0xF0FF = 0xF020 → decode w = .getc) ∧
    (w &&& 0xF0FF = 0xF021 → decode w = .out) ∧
    (w &&& 0xF0FF = 0xF022 → decode w = .puts) ∧
    (w &&& 0xF0FF = 0xF023 → decode w = .in_) ∧
    (w &&& 0xF0FF = 0xF024 → decode w = .putsp) ∧
    (w &&& 0xF0FF = 0xF025 → decode w = .halt)

/-- Words of the spec's own examples (rules R100-R161 and `95_test_vectors.md`; decision D1, log entry 1). -/
def Obligations.ExampleWordsDecode : Prop :=
  decode 0x1042 = .addR .r0 .r1 .r2 ∧ decode 0x107D = .addI .r0 .r1 (-3) ∧ decode 0x997F = .not .r4 .r5 ∧
  decode 0x05FE = .br 0b010 (-2) ∧ decode 0xC0C0 = .jmp .r3 ∧ decode 0xC1C0 = .ret ∧ decode 0x4C00 = .jsr (-1024) ∧
  decode 0x41C0 = .jsrr .r7 ∧ decode 0xA0FF = .ldi .r0 255 ∧ decode 0x673F = .ldr .r3 .r4 (-1) ∧
  decode 0xB5FC = .sti .r2 (-4) ∧ decode 0x7B9F = .str .r5 .r6 31 ∧ decode 0xF125 = .halt ∧ decode 0xF026 = .trap 0x26

/-! ### Operate instructions -/

/-- Rule R100: the operands of the ADD handler when ir[5] = 0, and the effect. -/
def Obligations.AddRegisterAddsAndSetsFlags : Prop :=
  (∀ ir : Word, opcodeOf ir = .add → ir.getLsbD 5 = false →
    decode ir = .addR (regField ir 9) (regField ir 6) (regField ir 0)) ∧
  ∀ (dr sr1 sr2 : Reg) (s : State), ∃ t : State, exec (.addR dr sr1 sr2) s = .next t ∧
    t.reg dr = s.reg sr1 + s.reg sr2 ∧ t.cond = flagOf (t.reg dr) ∧
    RegsSameBut dr s t ∧ t.pc = s.pc ∧ MemSame s t ∧ ConsoleSame s t

/-- Rule R101. -/
def Obligations.AddImmediateAddsAndSetsFlags : Prop :=
  (∀ ir : Word, opcodeOf ir = .add → ir.getLsbD 5 = true →
    decode ir = .addI (regField ir 9) (regField ir 6) (imm5Field ir)) ∧
  ∀ (dr sr1 : Reg) (imm5 : BitVec 5) (s : State), ∃ t : State, exec (.addI dr sr1 imm5) s = .next t ∧
    t.reg dr = s.reg sr1 + sext imm5 ∧ t.cond = flagOf (t.reg dr) ∧
    RegsSameBut dr s t ∧ t.pc = s.pc ∧ MemSame s t ∧ ConsoleSame s t

/-- Rule R102. -/
def Obligations.AndRegisterAndsAndSetsFlags : Prop :=
  (∀ ir : Word, opcodeOf ir = .and → ir.getLsbD 5 = false →
    decode ir = .andR (regField ir 9) (regField ir 6) (regField ir 0)) ∧
  ∀ (dr sr1 sr2 : Reg) (s : State), ∃ t : State, exec (.andR dr sr1 sr2) s = .next t ∧
    t.reg dr = s.reg sr1 &&& s.reg sr2 ∧ t.cond = flagOf (t.reg dr) ∧
    RegsSameBut dr s t ∧ t.pc = s.pc ∧ MemSame s t ∧ ConsoleSame s t

/-- Rule R103. -/
def Obligations.AndImmediateAndsAndSetsFlags : Prop :=
  (∀ ir : Word, opcodeOf ir = .and → ir.getLsbD 5 = true →
    decode ir = .andI (regField ir 9) (regField ir 6) (imm5Field ir)) ∧
  ∀ (dr sr1 : Reg) (imm5 : BitVec 5) (s : State), ∃ t : State, exec (.andI dr sr1 imm5) s = .next t ∧
    t.reg dr = s.reg sr1 &&& sext imm5 ∧ t.cond = flagOf (t.reg dr) ∧
    RegsSameBut dr s t ∧ t.pc = s.pc ∧ MemSame s t ∧ ConsoleSame s t

/-- Rule R104. -/
def Obligations.NotComplementsAndSetsFlags : Prop :=
  (∀ ir : Word, opcodeOf ir = .not → decode ir = .not (regField ir 9) (regField ir 6)) ∧
  ∀ (dr sr : Reg) (s : State), ∃ t : State, exec (.not dr sr) s = .next t ∧
    t.reg dr = ~~~(s.reg sr) ∧ t.cond = flagOf (t.reg dr) ∧
    RegsSameBut dr s t ∧ t.pc = s.pc ∧ MemSame s t ∧ ConsoleSame s t

/-- Negation is NOT, then ADD #1, with wrap (rule R105). -/
def Obligations.NotThenAddOneNegates : Prop :=
  ∀ (dr sr : Reg) (s : State), ∃ t u : State, exec (.not dr sr) s = .next t ∧ exec (.addI dr dr 1) t = .next u ∧
    u.reg dr = 0 - s.reg sr ∧ RegsSameBut dr s u ∧ u.cond = flagOf (0 - s.reg sr)

/-! ### Control transfer -/

/-- Rule R110: the test is `(cond & COND) != 0`, the target is relative to the incremented PC. The numbers of POS, ZRO
and NEG in COND are the spec's decision D2 (log entry 2). -/
def Obligations.BranchAddsOffsetWhenMasked : Prop :=
  (∀ ir : Word, opcodeOf ir = .br → decode ir = .br (condField ir) (offset9Field ir)) ∧
  ∀ (cond : BitVec 3) (offset9 : BitVec 9) (s : State), ∃ t : State, exec (.br cond offset9) s = .next t ∧
    ((zext cond &&& s.cond) ≠ 0 → t.pc = s.pc + sext offset9) ∧ ((zext cond &&& s.cond) = 0 → t.pc = s.pc) ∧
    RegsSame s t ∧ t.cond = s.cond ∧ MemSame s t ∧ ConsoleSame s t

/-- n tests NEG, z tests ZRO and p tests POS (rules R24, R110; the spec's decision D2, log entry 2). -/
def Obligations.BranchTestsNamedFlag : Prop :=
  ∀ (cond : BitVec 3) (offset9 : BitVec 9) (s : State), CondLegal s → ∃ t : State,
    exec (.br cond offset9) s = .next t ∧
    t.pc = if (cond.getLsbD 2 = true ∧ s.cond = condNeg) ∨ (cond.getLsbD 1 = true ∧ s.cond = condZro) ∨
        (cond.getLsbD 0 = true ∧ s.cond = condPos) then s.pc + sext offset9 else s.pc

/-- Rule R28: once COND is a flag value it stays one, and before that no BR is taken (the reset value 0x0000 is the
spec's decision D4, log entry 3). -/
def Obligations.FlagValueOnceSetStays : Prop :=
  (∀ s t : State, step s = .next t → FlagValue s.cond → FlagValue t.cond) ∧
  (∀ (cond : BitVec 3) (offset9 : BitVec 9) (s : State), s.cond = 0x0000 → exec (.br cond offset9) s = .next s)

/-- Rule R111, RET included (rule R72). -/
def Obligations.JumpGoesToBaseRegister : Prop :=
  (∀ (ir : Word) (s : State), opcodeOf ir = .jmp → exec (decode ir) s = exec (.jmp (regField ir 6)) s) ∧
  (∀ s : State, ∃ t : State, exec .ret s = .next t ∧
    t.pc = s.reg .r7 ∧ RegsSame s t ∧ t.cond = s.cond ∧ MemSame s t ∧ ConsoleSame s t) ∧
  ∀ (baseR : Reg) (s : State), ∃ t : State, exec (.jmp baseR) s = .next t ∧
    t.pc = s.reg baseR ∧ RegsSame s t ∧ t.cond = s.cond ∧ MemSame s t ∧ ConsoleSame s t

/-- Rule R112. -/
def Obligations.JsrSavesReturnAddress : Prop :=
  (∀ ir : Word, opcodeOf ir = .jsr → ir.getLsbD 11 = true → decode ir = .jsr (offset11Field ir)) ∧
  ∀ (offset11 : BitVec 11) (s : State), ∃ t : State, exec (.jsr offset11) s = .next t ∧
    t.reg .r7 = s.pc ∧ t.pc = s.pc + sext offset11 ∧
    RegsSameBut .r7 s t ∧ t.cond = s.cond ∧ MemSame s t ∧ ConsoleSame s t

/-- Rule R113: the base is read before R7 is written, also when it is R7. -/
def Obligations.JsrrReadsBaseBeforeLink : Prop :=
  (∀ ir : Word, opcodeOf ir = .jsr → ir.getLsbD 11 = false → decode ir = .jsrr (regField ir 6)) ∧
  ∀ (baseR : Reg) (s : State), ∃ t : State, exec (.jsrr baseR) s = .next t ∧
    t.reg .r7 = s.pc ∧ t.pc = s.reg baseR ∧
    RegsSameBut .r7 s t ∧ t.cond = s.cond ∧ MemSame s t ∧ ConsoleSame s t

/-! ### Loads and LEA -/

/-- Rule R120. -/
def Obligations.LdLoadsPcRelative : Prop :=
  (∀ ir : Word, opcodeOf ir = .ld → decode ir = .ld (regField ir 9) (offset9Field ir)) ∧
  ∀ (dr : Reg) (offset9 : BitVec 9) (s : State), ∃ t : State, exec (.ld dr offset9) s = .next t ∧
    t.reg dr = s.memRead (s.pc + sext offset9) ∧ t.cond = flagOf (t.reg dr) ∧
    RegsSameBut dr s t ∧ t.pc = s.pc ∧ MemSame s t ∧ ConsoleSame s t

/-- Rule R121. -/
def Obligations.LdiLoadsThroughPointer : Prop :=
  (∀ ir : Word, opcodeOf ir = .ldi → decode ir = .ldi (regField ir 9) (offset9Field ir)) ∧
  ∀ (dr : Reg) (offset9 : BitVec 9) (s : State), ∃ t : State, exec (.ldi dr offset9) s = .next t ∧
    t.reg dr = s.memRead (s.memRead (s.pc + sext offset9)) ∧ t.cond = flagOf (t.reg dr) ∧
    RegsSameBut dr s t ∧ t.pc = s.pc ∧ MemSame s t ∧ ConsoleSame s t

/-- Rule R122. -/
def Obligations.LdrLoadsBaseRelative : Prop :=
  (∀ ir : Word, opcodeOf ir = .ldr → decode ir = .ldr (regField ir 9) (regField ir 6) (offset6Field ir)) ∧
  ∀ (dr baseR : Reg) (offset6 : BitVec 6) (s : State), ∃ t : State, exec (.ldr dr baseR offset6) s = .next t ∧
    t.reg dr = s.memRead (s.reg baseR + sext offset6) ∧ t.cond = flagOf (t.reg dr) ∧
    RegsSameBut dr s t ∧ t.pc = s.pc ∧ MemSame s t ∧ ConsoleSame s t

/-- Rule R123. -/
def Obligations.LeaLoadsAddress : Prop :=
  (∀ ir : Word, opcodeOf ir = .lea → decode ir = .lea (regField ir 9) (offset9Field ir)) ∧
  ∀ (dr : Reg) (offset9 : BitVec 9) (s : State), ∃ t : State, exec (.lea dr offset9) s = .next t ∧
    t.reg dr = s.pc + sext offset9 ∧ t.cond = flagOf (t.reg dr) ∧
    RegsSameBut dr s t ∧ t.pc = s.pc ∧ MemSame s t ∧ ConsoleSame s t

/-! ### Stores -/

/-- Rule R130. -/
def Obligations.StStoresPcRelative : Prop :=
  (∀ ir : Word, opcodeOf ir = .st → decode ir = .st (regField ir 9) (offset9Field ir)) ∧
  ∀ (sr : Reg) (offset9 : BitVec 9) (s : State), Memory.wf s.mem = true → ∃ t : State,
    exec (.st sr offset9) s = .next t ∧
    t.memRead (s.pc + sext offset9) = s.reg sr ∧ MemSameBut (s.pc + sext offset9) s t ∧
    RegsSame s t ∧ t.pc = s.pc ∧ t.cond = s.cond ∧ ConsoleSame s t

/-- Rule R131: the pointer is read before the store, also when it points at itself. -/
def Obligations.StiStoresThroughPointer : Prop :=
  (∀ ir : Word, opcodeOf ir = .sti → decode ir = .sti (regField ir 9) (offset9Field ir)) ∧
  ∀ (sr : Reg) (offset9 : BitVec 9) (s : State), Memory.wf s.mem = true → ∃ t : State,
    exec (.sti sr offset9) s = .next t ∧
    t.memRead (s.memRead (s.pc + sext offset9)) = s.reg sr ∧
    MemSameBut (s.memRead (s.pc + sext offset9)) s t ∧
    RegsSame s t ∧ t.pc = s.pc ∧ t.cond = s.cond ∧ ConsoleSame s t

/-- Rule R132. -/
def Obligations.StrStoresBaseRelative : Prop :=
  (∀ ir : Word, opcodeOf ir = .str → decode ir = .str (regField ir 9) (regField ir 6) (offset6Field ir)) ∧
  ∀ (sr baseR : Reg) (offset6 : BitVec 6) (s : State), Memory.wf s.mem = true → ∃ t : State,
    exec (.str sr baseR offset6) s = .next t ∧
    t.memRead (s.reg baseR + sext offset6) = s.reg sr ∧ MemSameBut (s.reg baseR + sext offset6) s t ∧
    RegsSame s t ∧ t.pc = s.pc ∧ t.cond = s.cond ∧ ConsoleSame s t

/-- Self-modifying code needs no fence: what ST stores in the next word is what the next cycle fetches (rule R55). -/
def Obligations.StoredWordIsFetchedNext : Prop :=
  ∀ (s : State) (sr : Reg), Memory.wf s.mem = true → s.run = .running → s.phase = .boundary →
    decode s.fetch = .st sr 0 → ∃ t : State, step s = .next t ∧ t.pc = s.pc + 1 ∧ t.fetch = s.reg sr

/-! ### Traps -/

/-- Rules R140 and R147: the low eight bits choose the service; every other vector does nothing. -/
def Obligations.TrapDispatchesOnVector : Prop :=
  (∀ (ir : Word) (s : State), opcodeOf ir = .trap → exec (decode ir) s = exec (.trap (ir.extractLsb' 0 8)) s) ∧
  (∀ s : State, exec (.trap 0x20) s = exec .getc s ∧ exec (.trap 0x21) s = exec .out s ∧
    exec (.trap 0x22) s = exec .puts s ∧ exec (.trap 0x23) s = exec .in_ s ∧
    exec (.trap 0x24) s = exec .putsp s ∧ exec (.trap 0x25) s = exec .halt s) ∧
  (∀ (vector : BitVec 8) (s : State), vector.toNat < 0x20 ∨ 0x25 < vector.toNat → exec (.trap vector) s = .next s) ∧
  (∀ (vector : BitVec 8) (s : State), ∃ t : State, exec (.trap vector) s = .next t ∧ t.cond = s.cond)

/-- GETC takes the next byte into R0, zero-extended, without a flag update and without output (rule R141). What it does
when no byte waits is the statement about waiting. -/
def Obligations.GetcStoresNextByte : Prop :=
  ∀ (s : State) (b : Byte) (rest : List Byte), s.input = b :: rest → ∃ t : State, exec .getc s = .next t ∧
    t.reg .r0 = zext b ∧ RegsSameBut .r0 s t ∧ t.cond = s.cond ∧ t.pc = s.pc ∧ MemSame s t ∧
    t.input = rest ∧ t.run = s.run ∧ t.obuf = s.obuf ∧ t.sink = s.sink ∧ t.phase = .boundary

/-- Rule R142. -/
def Obligations.OutWritesLowByte : Prop :=
  (∀ ir : Word, opcodeOf ir = .trap → ir.extractLsb' 0 8 = 0x21 → decode ir = .out) ∧
  ∀ s : State, ∃ t : State, exec .out s = .next t ∧
    t.sink = s.sink ++ [s.obuf ++ [(s.reg .r0).extractLsb' 0 8]] ∧ t.obuf = [] ∧
    RegsSame s t ∧ t.cond = s.cond ∧ t.pc = s.pc ∧ MemSame s t ∧
    t.input = s.input ∧ t.run = s.run ∧ t.phase = s.phase

/-- PUTS writes the low byte of each word from R0 on, the address wrapping, up to the first zero word, and flushes
(rule R143; only a whole zero word ends the string, the spec's decision D20, and the scan wraps, decision D8, log
entry 5). -/
def Obligations.PutsWritesUntilZeroWord : Prop :=
  ∀ (s : State) (n : Nat), n < 65536 → (∀ j : Nat, j < n → s.memRead (wordsAfter (s.reg .r0) j) ≠ 0x0000) →
    s.memRead (wordsAfter (s.reg .r0) n) = 0x0000 → ∃ t : State, exec .puts s = .next t ∧
    t.sink = s.sink ++
      [s.obuf ++ (List.range n).map (fun j => (s.memRead (wordsAfter (s.reg .r0) j)).extractLsb' 0 8)] ∧
    t.obuf = [] ∧ RegsSame s t ∧ t.cond = s.cond ∧ t.pc = s.pc ∧ MemSame s t ∧
    t.input = s.input ∧ t.run = s.run ∧ t.phase = s.phase

/-- PUTSP writes the low byte and then, if it is not zero, the high byte of each word (rule R145; a zero low byte of a
nonzero word is written, the spec's decision D19, log entry 5). -/
def Obligations.PutspWritesTwoBytesPerWord : Prop :=
  ∀ (s : State) (n : Nat), n < 65536 → (∀ j : Nat, j < n → s.memRead (wordsAfter (s.reg .r0) j) ≠ 0x0000) →
    s.memRead (wordsAfter (s.reg .r0) n) = 0x0000 → ∃ t : State, exec .putsp s = .next t ∧
    t.sink = s.sink ++
      [s.obuf ++ (List.range n).flatMap (fun j =>
        (s.memRead (wordsAfter (s.reg .r0) j)).extractLsb' 0 8 ::
          (if (s.memRead (wordsAfter (s.reg .r0) j)).extractLsb' 8 8 = 0 then []
            else [(s.memRead (wordsAfter (s.reg .r0) j)).extractLsb' 8 8]))] ∧
    t.obuf = [] ∧ RegsSame s t ∧ t.cond = s.cond ∧ t.pc = s.pc ∧ MemSame s t ∧
    t.input = s.input ∧ t.run = s.run ∧ t.phase = s.phase

/-- A scan that meets no zero word never ends: the machine makes no further step and nothing but the phase shows it
(rules R143, R201, the spec's decision D8; the phase is the model's choice, log entries 4 and 5). -/
def Obligations.ScanWithoutZeroNeverEnds : Prop :=
  ∀ s : State, s.run = .running → s.phase = .boundary → (∀ a : Word, s.memRead a ≠ 0x0000) →
    decode s.fetch = .puts ∨ decode s.fetch = .putsp →
    ∀ k : Nat, Host.Core.run core (k + 1) s = .next (s.withPhase .endlessScan)

/-- IN writes the prompt once, reads a byte, echoes it, stores it zero-extended and flushes, for every prompt text
(rule R144; decisions D6, D9 and D14, log entries 4, 7 and 14). -/
def Obligations.InPromptsReadsAndEchoes : Prop :=
  ∀ (s : State) (b : Byte) (rest : List Byte), s.input = b :: rest → ∃ t : State, exec .in_ s = .next t ∧
    (s.phase ≠ .inputWait → t.sink = s.sink ++ [s.obuf ++ Config.inPrompt ++ [b]]) ∧
    (s.phase = .inputWait → t.sink = s.sink ++ [s.obuf ++ [b]]) ∧
    t.reg .r0 = zext b ∧ RegsSameBut .r0 s t ∧ t.cond = s.cond ∧ t.pc = s.pc ∧ MemSame s t ∧
    t.input = rest ∧ t.run = s.run ∧ t.obuf = [] ∧ t.phase = .boundary

/-- With no input byte the cycle of GETC or IN does not complete: PC, R0 and COND keep their values, and IN leaves its
prompt in the buffer (rule R32, test vectors GETC-3 and IN-2; decisions D7 and D14, log entry 4). -/
def Obligations.ReadWithoutInputWaits : Prop :=
  ∀ s : State, s.run = .running → s.phase = .boundary → s.input = [] →
    (decode s.fetch = .getc → step s = .next (s.withPhase .inputWait)) ∧
    (decode s.fetch = .in_ →
      step s = .next ((s.withObuf (s.obuf ++ Config.inPrompt)).withPhase .inputWait))

/-- The wait lasts while no byte comes and ends when one is delivered: then the service completes as if the byte had been
there (rules R32, R149, R181, R202; the phase is the model's choice, log entry 4). -/
def Obligations.DeliveredByteEndsWait : Prop :=
  ∀ (s : State) (b : Byte), Inv s → s.run = .running → s.phase = .inputWait → s.input = [] →
    step s = .next s ∧
    ∃ t : State, step (s.deliver b) = .next t ∧ t.reg .r0 = zext b ∧ RegsSameBut .r0 s t ∧ t.cond = s.cond ∧
      t.pc = s.pc + 1 ∧ MemSame s t ∧ t.input = [] ∧ t.obuf = [] ∧ t.phase = .boundary ∧
      (decode s.fetch = .getc → t.sink = s.sink) ∧
      (decode s.fetch = .in_ → t.sink = s.sink ++ [Config.inPrompt ++ [b]])

/-- HALT writes its notice, flushes and stops the machine, for every notice text (rule R146, decision D10, log
entry 7). -/
def Obligations.HaltNotifiesAndStops : Prop :=
  ∀ s : State, ∃ t : State, exec .halt s = .next t ∧ t.run = .halted ∧
    t.sink = s.sink ++ [s.obuf ++ Config.haltNotice] ∧ t.obuf = [] ∧
    RegsSame s t ∧ t.cond = s.cond ∧ t.pc = s.pc ∧ MemSame s t ∧ t.input = s.input ∧ t.phase = s.phase

/-- No trap service writes memory, COND, PC or a register but R0, only GETC and IN write R0, and only HALT changes the
run state (rule R148). -/
def Obligations.TrapServicesWriteOnlyR0 : Prop :=
  ∀ (i : Instr) (vector : BitVec 8) (s t : State), trapVector i = some vector → exec i s = .next t →
    RegsSameBut .r0 s t ∧ (vector ≠ 0x20 → vector ≠ 0x23 → RegsSame s t) ∧
    MemSame s t ∧ t.cond = s.cond ∧ t.pc = s.pc ∧ (vector ≠ 0x25 → t.run = s.run)

/-- What a trap service does depends on R0, memory and the console only: on no other register, not on PC or COND
(rule R148). -/
def Obligations.TrapServicesReadOnlyR0AndMemory : Prop :=
  ∀ (i : Instr) (vector : BitVec 8) (s s' t : State), trapVector i = some vector →
    s'.reg .r0 = s.reg .r0 → s'.mem = s.mem → ConsoleSame s s' → exec i s = .next t →
    ∃ t' : State, exec i s' = .next t' ∧ t'.reg .r0 = t.reg .r0 ∧ ConsoleSame t t'

/-- Rule R150: every service that produces output ends with a flush, also when its string is empty; GETC and the no-op
vectors neither output nor flush. -/
def Obligations.OutputServicesFlush : Prop :=
  ∀ (i : Instr) (vector : BitVec 8) (s t : State), trapVector i = some vector → exec i s = .next t →
    t.phase = .boundary →
    ((0x21 ≤ vector.toNat ∧ vector.toNat ≤ 0x25) →
      t.obuf = [] ∧ ∃ bytes : List Byte, t.sink = s.sink ++ [s.obuf ++ bytes]) ∧
    (¬(0x21 ≤ vector.toNat ∧ vector.toNat ≤ 0x25) → t.obuf = s.obuf ∧ t.sink = s.sink)

/-! ### RTI and the reserved opcode -/

/-- Rules R160 and R161: for every value of ir[11:0], nothing but the fetch increment. -/
def Obligations.RtiAndReservedOnlyAdvancePc : Prop :=
  (∀ ir : Word, ir.extractLsb' 12 4 = 8 → decode ir = .rti) ∧
  (∀ ir : Word, ir.extractLsb' 12 4 = 13 → decode ir = .reserved) ∧
  (∀ s : State, exec .rti s = .next s) ∧ (∀ s : State, exec .reserved s = .next s) ∧
  (∀ s : State, s.run = .running → s.phase = .boundary →
    s.fetch.extractLsb' 12 4 = 8 ∨ s.fetch.extractLsb' 12 4 = 13 → step s = .next (s.withPc (s.pc + 1)))

/-! ### Rules of the whole machine -/

/-- Rule R26: the seven instructions set COND from DR as it is after the write; no other instruction changes COND. -/
def Obligations.OnlySevenUpdateCond : Prop :=
  ∀ (i : Instr) (s t : State), exec i s = .next t →
    (∀ dr : Reg, flagDest i = some dr → t.cond = flagOf (t.reg dr)) ∧ (flagDest i = none → t.cond = s.cond)

/-- Rule R22: no general register changes but the one the instruction names as written. -/
def Obligations.OnlyNamedInstructionsWriteRegisters : Prop :=
  ∀ (i : Instr) (s t : State) (q : Reg), exec i s = .next t → destReg i ≠ some q → t.reg q = s.reg q

/-- Rule R23: every instruction but a control transfer leaves PC at the incremented value; a cycle that does not complete
never updates it (log entry 4). -/
def Obligations.OnlyTransfersMovePc : Prop :=
  ∀ s t : State, s.run = .running → s.phase ≠ .endlessScan → isTransfer (decode s.fetch) = false → step s = .next t →
    (t.phase = .boundary → t.pc = s.pc + 1) ∧ (t.phase ≠ .boundary → t.pc = s.pc)

/-- A run in which no store is fetched leaves every word of memory unchanged (rules R44, R48). -/
def Obligations.RunWithoutStoresKeepsMemory : Prop :=
  ∀ (k : Nat) (s t : State), Host.Core.run core k s = .next t →
    (∀ (j : Nat) (u : State), j < k → Host.Core.run core j s = .next u → isStore (decode u.fetch) = false) →
    MemSame s t

/-- What the sink has received is never taken back, and what is delivered and buffered only grows at its end: bytes reach
the sink in the order they were written (rules R31, R202). -/
def Obligations.OutputOnlyGrows : Prop :=
  ∀ s t : State, step s = .next t →
    (∃ chunks : List (List Byte), t.sink = s.sink ++ chunks) ∧
    ∃ bytes : List Byte, t.received ++ t.obuf = s.received ++ s.obuf ++ bytes

/-- A step takes at most one input byte, the first one, and only for a GETC or an IN (rule R32). -/
def Obligations.InputTakenInOrder : Prop :=
  ∀ s t : State, step s = .next t →
    t.input = s.input ∨
    ((decode s.fetch = .getc ∨ decode s.fetch = .in_) ∧ ∃ b : Byte, s.input = b :: t.input)

/-- No instruction but GETC and IN depends on the input, so none of them can wait for it (rules R32, R149). -/
def Obligations.OnlyGetcAndInDependOnInput : Prop :=
  ∀ (i : Instr) (s t : State) (bytes : List Byte), trapVector i ≠ some 0x20 → trapVector i ≠ some 0x23 →
    exec i s = .next t → exec i (s.withInput bytes) = .next (t.withInput bytes)
end

