-- ==== Sys2Proof/Laws/Decode.lean ====
section
/-! SUPPORT. The small lemmas of the encoding: registers, opcodes, and the bits of a placed field. -/

namespace Sys2Proof

@[simp] theorem Reg.ofBits_bits (r : Reg) : Reg.ofBits r.bits = r := by cases r <;> rfl

@[simp] theorem Reg.bits_ofBits (b : BitVec 3) : (Reg.ofBits b).bits = b := by revert b; decide

@[simp] theorem Opcode.ofBits_bits (o : Opcode) : Opcode.ofBits o.bits = o := by cases o <;> rfl

@[simp] theorem Opcode.bits_ofBits (b : BitVec 4) : (Opcode.ofBits b).bits = b := by revert b; decide

/-- Each bit of a placed field. -/
theorem getLsbD_place {n : Nat} (lo : Nat) (f : BitVec n) (i : Nat) :
    (place lo f).getLsbD i = (decide (i < 16) && (decide (lo ≤ i) && f.getLsbD (i - lo))) := by
  by_cases h : i < 16 <;> by_cases hl : i < lo
  · simp [place, h, hl]
  · simp [place, h, hl, Nat.le_of_not_lt hl]
  · simp [place, h]
  · simp [place, h]

/-- Each bit of a placed field, in the form that bit proofs meet it. -/
@[simp] theorem getElem_place {n : Nat} (lo : Nat) (f : BitVec n) (i : Nat) (h : i < 16) :
    (place lo f)[i] = (decide (lo ≤ i) && f.getLsbD (i - lo)) := by
  rw [← BitVec.getLsbD_eq_getElem, getLsbD_place]
  simp [h]

end Sys2Proof
end

