-- ==== Sys2Proof/Laws/State.lean ====
section
/-! SUPPORT. One lemma for each field of State under each update, and the two laws of the register file, so that no
proof unfolds a record update. -/

namespace Sys2Proof.Machine

@[simp] theorem State.withReg_regs (s : State) (r : Reg) (v : Word) : (s.withReg r v).regs = s.regs.set r v := rfl
@[simp] theorem State.withReg_pc (s : State) (r : Reg) (v : Word) : (s.withReg r v).pc = s.pc := rfl
@[simp] theorem State.withReg_cond (s : State) (r : Reg) (v : Word) : (s.withReg r v).cond = s.cond := rfl
@[simp] theorem State.withReg_mem (s : State) (r : Reg) (v : Word) : (s.withReg r v).mem = s.mem := rfl
@[simp] theorem State.withReg_run (s : State) (r : Reg) (v : Word) : (s.withReg r v).run = s.run := rfl
@[simp] theorem State.withReg_obuf (s : State) (r : Reg) (v : Word) : (s.withReg r v).obuf = s.obuf := rfl
@[simp] theorem State.withReg_input (s : State) (r : Reg) (v : Word) : (s.withReg r v).input = s.input := rfl
@[simp] theorem State.withReg_sink (s : State) (r : Reg) (v : Word) : (s.withReg r v).sink = s.sink := rfl
@[simp] theorem State.withReg_phase (s : State) (r : Reg) (v : Word) : (s.withReg r v).phase = s.phase := rfl

@[simp] theorem State.withPc_regs (s : State) (v : Word) : (s.withPc v).regs = s.regs := rfl
@[simp] theorem State.withPc_pc (s : State) (v : Word) : (s.withPc v).pc = v := rfl
@[simp] theorem State.withPc_cond (s : State) (v : Word) : (s.withPc v).cond = s.cond := rfl
@[simp] theorem State.withPc_mem (s : State) (v : Word) : (s.withPc v).mem = s.mem := rfl
@[simp] theorem State.withPc_run (s : State) (v : Word) : (s.withPc v).run = s.run := rfl
@[simp] theorem State.withPc_obuf (s : State) (v : Word) : (s.withPc v).obuf = s.obuf := rfl
@[simp] theorem State.withPc_input (s : State) (v : Word) : (s.withPc v).input = s.input := rfl
@[simp] theorem State.withPc_sink (s : State) (v : Word) : (s.withPc v).sink = s.sink := rfl
@[simp] theorem State.withPc_phase (s : State) (v : Word) : (s.withPc v).phase = s.phase := rfl

@[simp] theorem State.withCond_regs (s : State) (v : Word) : (s.withCond v).regs = s.regs := rfl
@[simp] theorem State.withCond_pc (s : State) (v : Word) : (s.withCond v).pc = s.pc := rfl
@[simp] theorem State.withCond_cond (s : State) (v : Word) : (s.withCond v).cond = v := rfl
@[simp] theorem State.withCond_mem (s : State) (v : Word) : (s.withCond v).mem = s.mem := rfl
@[simp] theorem State.withCond_run (s : State) (v : Word) : (s.withCond v).run = s.run := rfl
@[simp] theorem State.withCond_obuf (s : State) (v : Word) : (s.withCond v).obuf = s.obuf := rfl
@[simp] theorem State.withCond_input (s : State) (v : Word) : (s.withCond v).input = s.input := rfl
@[simp] theorem State.withCond_sink (s : State) (v : Word) : (s.withCond v).sink = s.sink := rfl
@[simp] theorem State.withCond_phase (s : State) (v : Word) : (s.withCond v).phase = s.phase := rfl

@[simp] theorem State.withMem_regs (s : State) (m : Memory) : (s.withMem m).regs = s.regs := rfl
@[simp] theorem State.withMem_pc (s : State) (m : Memory) : (s.withMem m).pc = s.pc := rfl
@[simp] theorem State.withMem_cond (s : State) (m : Memory) : (s.withMem m).cond = s.cond := rfl
@[simp] theorem State.withMem_mem (s : State) (m : Memory) : (s.withMem m).mem = m := rfl
@[simp] theorem State.withMem_run (s : State) (m : Memory) : (s.withMem m).run = s.run := rfl
@[simp] theorem State.withMem_obuf (s : State) (m : Memory) : (s.withMem m).obuf = s.obuf := rfl
@[simp] theorem State.withMem_input (s : State) (m : Memory) : (s.withMem m).input = s.input := rfl
@[simp] theorem State.withMem_sink (s : State) (m : Memory) : (s.withMem m).sink = s.sink := rfl
@[simp] theorem State.withMem_phase (s : State) (m : Memory) : (s.withMem m).phase = s.phase := rfl

@[simp] theorem State.withRun_regs (s : State) (r : RunState) : (s.withRun r).regs = s.regs := rfl
@[simp] theorem State.withRun_pc (s : State) (r : RunState) : (s.withRun r).pc = s.pc := rfl
@[simp] theorem State.withRun_cond (s : State) (r : RunState) : (s.withRun r).cond = s.cond := rfl
@[simp] theorem State.withRun_mem (s : State) (r : RunState) : (s.withRun r).mem = s.mem := rfl
@[simp] theorem State.withRun_run (s : State) (r : RunState) : (s.withRun r).run = r := rfl
@[simp] theorem State.withRun_obuf (s : State) (r : RunState) : (s.withRun r).obuf = s.obuf := rfl
@[simp] theorem State.withRun_input (s : State) (r : RunState) : (s.withRun r).input = s.input := rfl
@[simp] theorem State.withRun_sink (s : State) (r : RunState) : (s.withRun r).sink = s.sink := rfl
@[simp] theorem State.withRun_phase (s : State) (r : RunState) : (s.withRun r).phase = s.phase := rfl

@[simp] theorem State.withObuf_regs (s : State) (bs : List Byte) : (s.withObuf bs).regs = s.regs := rfl
@[simp] theorem State.withObuf_pc (s : State) (bs : List Byte) : (s.withObuf bs).pc = s.pc := rfl
@[simp] theorem State.withObuf_cond (s : State) (bs : List Byte) : (s.withObuf bs).cond = s.cond := rfl
@[simp] theorem State.withObuf_mem (s : State) (bs : List Byte) : (s.withObuf bs).mem = s.mem := rfl
@[simp] theorem State.withObuf_run (s : State) (bs : List Byte) : (s.withObuf bs).run = s.run := rfl
@[simp] theorem State.withObuf_obuf (s : State) (bs : List Byte) : (s.withObuf bs).obuf = bs := rfl
@[simp] theorem State.withObuf_input (s : State) (bs : List Byte) : (s.withObuf bs).input = s.input := rfl
@[simp] theorem State.withObuf_sink (s : State) (bs : List Byte) : (s.withObuf bs).sink = s.sink := rfl
@[simp] theorem State.withObuf_phase (s : State) (bs : List Byte) : (s.withObuf bs).phase = s.phase := rfl

@[simp] theorem State.withInput_regs (s : State) (bs : List Byte) : (s.withInput bs).regs = s.regs := rfl
@[simp] theorem State.withInput_pc (s : State) (bs : List Byte) : (s.withInput bs).pc = s.pc := rfl
@[simp] theorem State.withInput_cond (s : State) (bs : List Byte) : (s.withInput bs).cond = s.cond := rfl
@[simp] theorem State.withInput_mem (s : State) (bs : List Byte) : (s.withInput bs).mem = s.mem := rfl
@[simp] theorem State.withInput_run (s : State) (bs : List Byte) : (s.withInput bs).run = s.run := rfl
@[simp] theorem State.withInput_obuf (s : State) (bs : List Byte) : (s.withInput bs).obuf = s.obuf := rfl
@[simp] theorem State.withInput_input (s : State) (bs : List Byte) : (s.withInput bs).input = bs := rfl
@[simp] theorem State.withInput_sink (s : State) (bs : List Byte) : (s.withInput bs).sink = s.sink := rfl
@[simp] theorem State.withInput_phase (s : State) (bs : List Byte) : (s.withInput bs).phase = s.phase := rfl

@[simp] theorem State.withSink_regs (s : State) (d : List (List Byte)) : (s.withSink d).regs = s.regs := rfl
@[simp] theorem State.withSink_pc (s : State) (d : List (List Byte)) : (s.withSink d).pc = s.pc := rfl
@[simp] theorem State.withSink_cond (s : State) (d : List (List Byte)) : (s.withSink d).cond = s.cond := rfl
@[simp] theorem State.withSink_mem (s : State) (d : List (List Byte)) : (s.withSink d).mem = s.mem := rfl
@[simp] theorem State.withSink_run (s : State) (d : List (List Byte)) : (s.withSink d).run = s.run := rfl
@[simp] theorem State.withSink_obuf (s : State) (d : List (List Byte)) : (s.withSink d).obuf = s.obuf := rfl
@[simp] theorem State.withSink_input (s : State) (d : List (List Byte)) : (s.withSink d).input = s.input := rfl
@[simp] theorem State.withSink_sink (s : State) (d : List (List Byte)) : (s.withSink d).sink = d := rfl
@[simp] theorem State.withSink_phase (s : State) (d : List (List Byte)) : (s.withSink d).phase = s.phase := rfl

@[simp] theorem State.withPhase_regs (s : State) (p : Phase) : (s.withPhase p).regs = s.regs := rfl
@[simp] theorem State.withPhase_pc (s : State) (p : Phase) : (s.withPhase p).pc = s.pc := rfl
@[simp] theorem State.withPhase_cond (s : State) (p : Phase) : (s.withPhase p).cond = s.cond := rfl
@[simp] theorem State.withPhase_mem (s : State) (p : Phase) : (s.withPhase p).mem = s.mem := rfl
@[simp] theorem State.withPhase_run (s : State) (p : Phase) : (s.withPhase p).run = s.run := rfl
@[simp] theorem State.withPhase_obuf (s : State) (p : Phase) : (s.withPhase p).obuf = s.obuf := rfl
@[simp] theorem State.withPhase_input (s : State) (p : Phase) : (s.withPhase p).input = s.input := rfl
@[simp] theorem State.withPhase_sink (s : State) (p : Phase) : (s.withPhase p).sink = s.sink := rfl
@[simp] theorem State.withPhase_phase (s : State) (p : Phase) : (s.withPhase p).phase = p := rfl

/-- A register reads what was last written to it. -/
@[simp] theorem RegFile.get_set_same (f : RegFile) (r : Reg) (v : Word) : (f.set r v).get r = v := by
  cases r <;> rfl

/-- A write of one register leaves the others alone. -/
theorem RegFile.get_set_other (f : RegFile) (r q : Reg) (v : Word) (h : q ≠ r) : (f.set r v).get q = f.get q := by
  cases r <;> cases q <;> first | rfl | exact absurd rfl h

/-- A register after a write, either way. -/
theorem RegFile.get_set (f : RegFile) (r q : Reg) (v : Word) :
    (f.set r v).get q = if q = r then v else f.get q := by
  by_cases h : q = r
  · subst h; simp
  · simp [h, RegFile.get_set_other]

@[simp] theorem State.withReg_reg_same (s : State) (r : Reg) (v : Word) : (s.withReg r v).reg r = v :=
  RegFile.get_set_same _ _ _

theorem State.withReg_reg_other (s : State) (r q : Reg) (v : Word) (h : q ≠ r) : (s.withReg r v).reg q = s.reg q :=
  RegFile.get_set_other _ _ _ _ h

@[simp] theorem State.withPc_reg (s : State) (v : Word) (q : Reg) : (s.withPc v).reg q = s.reg q := rfl
@[simp] theorem State.withCond_reg (s : State) (v : Word) (q : Reg) : (s.withCond v).reg q = s.reg q := rfl
@[simp] theorem State.withMem_reg (s : State) (m : Memory) (q : Reg) : (s.withMem m).reg q = s.reg q := rfl
@[simp] theorem State.withRun_reg (s : State) (r : RunState) (q : Reg) : (s.withRun r).reg q = s.reg q := rfl
@[simp] theorem State.withObuf_reg (s : State) (bs : List Byte) (q : Reg) : (s.withObuf bs).reg q = s.reg q := rfl
@[simp] theorem State.withInput_reg (s : State) (bs : List Byte) (q : Reg) : (s.withInput bs).reg q = s.reg q := rfl
@[simp] theorem State.withSink_reg (s : State) (d : List (List Byte)) (q : Reg) : (s.withSink d).reg q = s.reg q := rfl
@[simp] theorem State.withPhase_reg (s : State) (p : Phase) (q : Reg) : (s.withPhase p).reg q = s.reg q := rfl

@[simp] theorem State.withReg_memRead (s : State) (r : Reg) (v : Word) (q : Word) : (s.withReg r v).memRead q = s.memRead q := rfl
@[simp] theorem State.withPc_memRead (s : State) (v : Word) (q : Word) : (s.withPc v).memRead q = s.memRead q := rfl
@[simp] theorem State.withCond_memRead (s : State) (v : Word) (q : Word) : (s.withCond v).memRead q = s.memRead q := rfl
@[simp] theorem State.withRun_memRead (s : State) (r : RunState) (q : Word) : (s.withRun r).memRead q = s.memRead q := rfl
@[simp] theorem State.withObuf_memRead (s : State) (bs : List Byte) (q : Word) : (s.withObuf bs).memRead q = s.memRead q := rfl
@[simp] theorem State.withInput_memRead (s : State) (bs : List Byte) (q : Word) : (s.withInput bs).memRead q = s.memRead q := rfl
@[simp] theorem State.withSink_memRead (s : State) (d : List (List Byte)) (q : Word) : (s.withSink d).memRead q = s.memRead q := rfl
@[simp] theorem State.withPhase_memRead (s : State) (p : Phase) (q : Word) : (s.withPhase p).memRead q = s.memRead q := rfl

end Sys2Proof.Machine
end

