-- ==== Sys2Proof/Laws/Ops.lean ====
section
/-! SUPPORT. For each shared operation, once, everything it can do. -/

namespace Sys2Proof.Machine

/-! ### The canonical form of memory -/

/-- The form of the tail of a memory, and what its head bounds. -/
theorem Memory.wf_cons (c : Nat × Word) (m : Memory) :
    Memory.wf (c :: m) = true ↔
      (∀ d ∈ m, c.1 < d.1) ∧ c.1 < Config.memWords ∧ c.2 ≠ unlistedWord ∧ Memory.wf m = true := by
  simp [Memory.wf, List.pairwise_cons]
  tauto

theorem Memory.wf_nil : Memory.wf [] = true := by decide

/-- An address below every listed one reads as an unlisted address. -/
theorem Memory.readAt_of_lt (m : Memory) (a : Nat) (h : ∀ d ∈ m, a < d.1) : Memory.readAt m a = unlistedWord := by
  induction m with
  | nil => rfl
  | cons c m ih =>
    have hc : a < c.1 := h c (by simp)
    simp only [Memory.readAt, Nat.ne_of_lt hc, if_false]
    exact ih (fun d hd => h d (by simp [hd]))

/-- What an entry of a written memory is. -/
theorem Memory.mem_writeAt (m : Memory) (a : Nat) (v : Word) (d : Nat × Word) (h : d ∈ Memory.writeAt m a v) :
    d ∈ m ∨ (d = (a, v) ∧ v ≠ unlistedWord) := by
  induction m with
  | nil =>
    by_cases hv : v = unlistedWord <;> simp_all [Memory.writeAt]
  | cons c m ih =>
    obtain ⟨b, w⟩ := c
    simp only [Memory.writeAt] at h
    split at h
    · split at h
      · exact .inl h
      · rcases List.mem_cons.1 h with h | h
        · exact .inr ⟨h, ‹_›⟩
        · exact .inl h
    · split at h
      · split at h
        · exact .inl (List.mem_cons_of_mem _ h)
        · rcases List.mem_cons.1 h with h | h
          · exact .inr ⟨h, ‹_›⟩
          · exact .inl (List.mem_cons_of_mem _ h)
      · rcases List.mem_cons.1 h with h | h
        · exact .inl (by simp [h])
        · rcases ih h with h | h
          · exact .inl (List.mem_cons_of_mem _ h)
          · exact .inr h

/-- A write keeps the canonical form. -/
theorem Memory.writeAt_wf (m : Memory) (a : Nat) (v : Word) (ha : a < Config.memWords) (h : Memory.wf m = true) :
    Memory.wf (Memory.writeAt m a v) = true := by
  induction m with
  | nil =>
    by_cases hv : v = unlistedWord
    · simp [Memory.writeAt, hv, Memory.wf_nil]
    · simp [Memory.writeAt, hv, Memory.wf_cons, Memory.wf_nil, ha]
  | cons c m ih =>
    obtain ⟨b, w⟩ := c
    have hm := (Memory.wf_cons _ _).1 h
    obtain ⟨hlt, hb, hw, hmwf⟩ := hm
    simp only [Memory.writeAt]
    split
    · split
      · exact h
      · refine (Memory.wf_cons _ _).2 ⟨?_, ha, ‹_›, h⟩
        intro d hd
        rcases List.mem_cons.1 hd with rfl | hd
        · assumption
        · exact lt_trans (by assumption) (hlt d hd)
    · split
      · rename_i hab
        split
        · exact hmwf
        · exact (Memory.wf_cons _ _).2 ⟨fun d hd => hab ▸ hlt d hd, ha, ‹_›, hmwf⟩
      · refine (Memory.wf_cons _ _).2 ⟨?_, hb, hw, ih hmwf⟩
        intro d hd
        rcases Memory.mem_writeAt m a v d hd with hd | ⟨rfl, _⟩
        · exact hlt d hd
        · simp only; omega

/-- An address at most equal to the head of a canonical memory is listed nowhere in its tail. -/
theorem Memory.readAt_tail (b a : Nat) (w : Word) (m : Memory) (h : Memory.wf ((b, w) :: m) = true) (ha : a ≤ b) :
    Memory.readAt m a = unlistedWord :=
  Memory.readAt_of_lt m a fun d hd => lt_of_le_of_lt ha (((Memory.wf_cons _ _).1 h).1 d hd)

/-- Any address of a written canonical memory. -/
theorem Memory.readAt_writeAt (m : Memory) (a b : Nat) (v : Word) (h : Memory.wf m = true) :
    Memory.readAt (Memory.writeAt m a v) b = if b = a then v else Memory.readAt m b := by
  induction m with
  | nil =>
    by_cases hv : v = unlistedWord <;> by_cases hb : b = a <;> simp [Memory.writeAt, Memory.readAt, hv, hb]
  | cons c m ih =>
    obtain ⟨e, w⟩ := c
    have htail := ((Memory.wf_cons _ _).1 h).2.2.2
    simp only [Memory.writeAt]
    by_cases hae : a < e
    · have hread : Memory.readAt ((e, w) :: m) a = unlistedWord := by
        simp only [Memory.readAt, Nat.ne_of_lt hae, if_false]
        exact Memory.readAt_tail e a w m h (Nat.le_of_lt hae)
      by_cases hv : v = unlistedWord
      · simp only [hae, hv, if_true]
        by_cases hb : b = a
        · simp [hb, hread]
        · simp [hb]
      · simp only [hae, hv, if_true, if_false]
        by_cases hb : b = a <;> simp [Memory.readAt, hb]
    · by_cases hae' : a = e
      · subst hae'
        by_cases hv : v = unlistedWord
        · simp only [lt_irrefl, hv, if_true, if_false]
          by_cases hb : b = a
          · simp [hb, Memory.readAt_tail a a w m h le_rfl]
          · simp [Memory.readAt, hb]
        · simp only [lt_irrefl, hv, if_true, if_false]
          by_cases hb : b = a <;> simp [Memory.readAt, hb]
      · simp only [hae, hae', if_false]
        by_cases hbe : b = e
        · subst hbe
          have hba : b ≠ a := fun hh => hae' hh.symm
          simp [Memory.readAt, hba]
        · simp only [Memory.readAt, hbe, if_false]
          exact ih htail

/-! ### Memory through State -/

@[simp] theorem State.memWrite_regs (s : State) (a v : Word) : (s.memWrite a v).regs = s.regs := rfl
@[simp] theorem State.memWrite_reg (s : State) (a v : Word) (r : Reg) : (s.memWrite a v).reg r = s.reg r := rfl
@[simp] theorem State.memWrite_pc (s : State) (a v : Word) : (s.memWrite a v).pc = s.pc := rfl
@[simp] theorem State.memWrite_cond (s : State) (a v : Word) : (s.memWrite a v).cond = s.cond := rfl
@[simp] theorem State.memWrite_run (s : State) (a v : Word) : (s.memWrite a v).run = s.run := rfl
@[simp] theorem State.memWrite_obuf (s : State) (a v : Word) : (s.memWrite a v).obuf = s.obuf := rfl
@[simp] theorem State.memWrite_input (s : State) (a v : Word) : (s.memWrite a v).input = s.input := rfl
@[simp] theorem State.memWrite_sink (s : State) (a v : Word) : (s.memWrite a v).sink = s.sink := rfl
@[simp] theorem State.memWrite_phase (s : State) (a v : Word) : (s.memWrite a v).phase = s.phase := rfl

/-- A 16-bit address lies in memory. -/
theorem toNat_lt_memWords (a : Word) : a.toNat < Config.memWords := a.isLt

/-- `MemWrite` keeps the canonical form. -/
theorem State.memWrite_wf (s : State) (a v : Word) (h : Memory.wf s.mem = true) :
    Memory.wf (s.memWrite a v).mem = true :=
  Memory.writeAt_wf s.mem a.toNat v (toNat_lt_memWords a) h

/-! ### Flags -/

/-- What `SetCC` writes is always a flag value. -/
theorem flagOf_cases (v : Word) : flagOf v = condPos ∨ flagOf v = condZro ∨ flagOf v = condNeg := by
  unfold flagOf
  split
  · exact .inr (.inl rfl)
  · split
    · exact .inr (.inr rfl)
    · exact .inl rfl

@[simp] theorem State.writeResult_cond (s : State) (dr : Reg) (v : Word) : (s.writeResult dr v).cond = flagOf v := by
  simp [State.writeResult, State.setCC]

@[simp] theorem State.writeResult_reg_same (s : State) (dr : Reg) (v : Word) : (s.writeResult dr v).reg dr = v := by
  simp [State.writeResult, State.setCC]

theorem State.writeResult_reg_other (s : State) (dr q : Reg) (v : Word) (h : q ≠ dr) :
    (s.writeResult dr v).reg q = s.reg q := by
  simp [State.writeResult, State.setCC, State.withReg_reg_other, h]

@[simp] theorem State.writeResult_pc (s : State) (dr : Reg) (v : Word) : (s.writeResult dr v).pc = s.pc := rfl
@[simp] theorem State.writeResult_mem (s : State) (dr : Reg) (v : Word) : (s.writeResult dr v).mem = s.mem := rfl
@[simp] theorem State.writeResult_run (s : State) (dr : Reg) (v : Word) : (s.writeResult dr v).run = s.run := rfl
@[simp] theorem State.writeResult_obuf (s : State) (dr : Reg) (v : Word) : (s.writeResult dr v).obuf = s.obuf := rfl
@[simp] theorem State.writeResult_input (s : State) (dr : Reg) (v : Word) : (s.writeResult dr v).input = s.input := rfl
@[simp] theorem State.writeResult_sink (s : State) (dr : Reg) (v : Word) : (s.writeResult dr v).sink = s.sink := rfl
@[simp] theorem State.writeResult_phase (s : State) (dr : Reg) (v : Word) : (s.writeResult dr v).phase = s.phase := rfl
@[simp] theorem State.writeResult_memRead (s : State) (dr : Reg) (v a : Word) :
    (s.writeResult dr v).memRead a = s.memRead a := rfl

/-! ### The console primitives -/

/-- The two things `InByte()` can do. -/
theorem State.inByte_cases (s : State) :
    (s.input = [] ∧ s.inByte = none) ∨
      ∃ b rest, s.input = b :: rest ∧ s.inByte = some (b, s.withInput rest) := by
  unfold State.inByte
  cases h : s.input with
  | nil => exact .inl ⟨rfl, rfl⟩
  | cons b rest => exact .inr ⟨b, rest, rfl, rfl⟩

@[simp] theorem State.outBytes_eq (s : State) (bs : List Byte) : s.outBytes bs = s.withObuf (s.obuf ++ bs) := rfl

@[simp] theorem State.flush_eq (s : State) : s.flush = (s.withSink (s.sink ++ [s.obuf])).withObuf [] := rfl

/-- Everything GETC can do: wait, or take one byte into R0. -/
theorem State.serviceGetc_cases (s : State) :
    (s.input = [] ∧ s.serviceGetc = s.withPhase .inputWait) ∨
      ∃ b rest, s.input = b :: rest ∧
        s.serviceGetc = ((s.withInput rest).withReg .r0 (zext b)).withPhase .boundary := by
  rcases s.inByte_cases with ⟨h, hb⟩ | ⟨b, rest, h, hb⟩
  · exact .inl ⟨h, by simp [State.serviceGetc, hb]⟩
  · exact .inr ⟨b, rest, h, by simp [State.serviceGetc, hb]⟩

/-- The prompt changes the output buffer only, and nothing when IN already waits. -/
theorem State.promptOnce_cases (s : State) :
    (s.phase = .inputWait ∧ s.promptOnce = s) ∨
      (s.phase ≠ .inputWait ∧ s.promptOnce = s.withObuf (s.obuf ++ Config.inPrompt)) := by
  unfold State.promptOnce
  cases h : s.phase with
  | boundary => exact .inr ⟨by decide, rfl⟩
  | inputWait => exact .inl ⟨rfl, rfl⟩
  | endlessScan => exact .inr ⟨by decide, rfl⟩

/-- What the output buffer holds once the prompt of IN is in it. -/
theorem State.promptOnce_eq (s : State) : s.promptOnce = s.withObuf s.promptOnce.obuf := by
  rcases s.promptOnce_cases with ⟨_, h⟩ | ⟨_, h⟩ <;> rw [h] <;> rfl

/-- Everything IN can do: wait with the prompt buffered, or take one byte, echo it and flush. -/
theorem State.serviceIn_cases (s : State) :
    (s.input = [] ∧ s.serviceIn = (s.withObuf s.promptOnce.obuf).withPhase .inputWait) ∨
      ∃ b rest, s.input = b :: rest ∧
        s.serviceIn = ((((s.withObuf (s.promptOnce.obuf ++ [b])).withInput rest).withReg .r0 (zext b)).flush).withPhase
          .boundary := by
  have hin : s.promptOnce.input = s.input := by rw [s.promptOnce_eq]; rfl
  rcases s.promptOnce.inByte_cases with ⟨h, hb⟩ | ⟨b, rest, h, hb⟩
  · refine .inl ⟨hin ▸ h, ?_⟩
    simp only [State.serviceIn, hb]
    exact congrArg (·.withPhase .inputWait) s.promptOnce_eq
  · refine .inr ⟨b, rest, hin ▸ h, ?_⟩
    simp only [State.serviceIn, hb]
    conv_lhs => rw [s.promptOnce_eq]
    rfl

/-- Everything PUTS and PUTSP can do: never end, or flush the characters of the words before the first zero word. -/
theorem State.serviceString_cases (s : State) (chars : Word → List Byte) :
    (scanWords s.mem Config.memWords (s.reg .r0) = none ∧ s.serviceString chars = s.withPhase .endlessScan) ∨
      ∃ ws, scanWords s.mem Config.memWords (s.reg .r0) = some ws ∧
        s.serviceString chars = (s.outBytes (ws.flatMap chars)).flush := by
  unfold State.serviceString
  cases h : scanWords s.mem Config.memWords (s.reg .r0) with
  | none => exact .inl ⟨rfl, rfl⟩
  | some ws => exact .inr ⟨ws, rfl, rfl⟩

/-- One more word of a scan. -/
theorem scanWords_succ (m : Memory) (n : Nat) (a : Word) :
    scanWords m (n + 1) a =
      if Memory.readAt m a.toNat = 0x0000 then some []
      else (scanWords m n (a + 1)).map (Memory.readAt m a.toNat :: ·) := rfl

/-! ### The loader -/

/-- Copying keeps the canonical form. -/
theorem copyWords_wf (ws : List Word) (m : Memory) (a : Word) (h : Memory.wf m = true) :
    Memory.wf (copyWords m a ws) = true := by
  induction ws generalizing m a with
  | nil => exact h
  | cons w ws ih => exact ih _ _ (Memory.writeAt_wf m a.toNat w (toNat_lt_memWords a) h)

/-- Loading an image keeps the canonical form. -/
theorem loadImage_wf (m m' : Memory) (image : List Byte) (h : Memory.wf m = true)
    (hl : loadImage m image = some m') : Memory.wf m' = true := by
  unfold loadImage at hl
  split at hl
  · cases hl; exact copyWords_wf _ _ _ h
  · cases hl
  · cases hl

/-- Images load in the order given, each on the memory that the ones before it leave. -/
theorem loadImages_cons (m : Memory) (image : List Byte) (images : List (List Byte)) :
    loadImages m (image :: images) = (loadImage m image).bind (fun m' => loadImages m' images) := rfl

/-- Loading several images keeps the canonical form. -/
theorem loadImages_wf (images : List (List Byte)) (m m' : Memory) (h : Memory.wf m = true)
    (hl : loadImages m images = some m') : Memory.wf m' = true := by
  induction images generalizing m with
  | nil => cases hl; exact h
  | cons image images ih =>
    obtain ⟨m₁, h₁, h₂⟩ := Option.bind_eq_some_iff.1 (loadImages_cons m image images ▸ hl)
    exact ih m₁ (loadImage_wf m m₁ image h h₁) h₂

/-- A machine that boots is the launch of the memory its images leave. -/
theorem State.boot_some (images : List (List Byte)) (input : List Byte) (s : State) (h : State.boot images input = some s) :
    images ≠ [] ∧ ∃ m, loadImages State.reset.mem images = some m ∧ s = State.launch m input := by
  cases images with
  | nil => cases h
  | cons image images =>
    obtain ⟨m, hm, rfl⟩ := Option.map_eq_some_iff.1 h
    exact ⟨List.cons_ne_nil _ _, m, hm, rfl⟩

@[simp] theorem State.launch_regs (m : Memory) (bs : List Byte) : (State.launch m bs).regs = State.reset.regs := rfl
@[simp] theorem State.launch_pc (m : Memory) (bs : List Byte) : (State.launch m bs).pc = Config.resetPc := rfl
@[simp] theorem State.launch_cond (m : Memory) (bs : List Byte) : (State.launch m bs).cond = 0x0000 := rfl
@[simp] theorem State.launch_mem (m : Memory) (bs : List Byte) : (State.launch m bs).mem = m := rfl
@[simp] theorem State.launch_run (m : Memory) (bs : List Byte) : (State.launch m bs).run = .running := rfl
@[simp] theorem State.launch_obuf (m : Memory) (bs : List Byte) : (State.launch m bs).obuf = [] := rfl
@[simp] theorem State.launch_input (m : Memory) (bs : List Byte) : (State.launch m bs).input = bs := rfl
@[simp] theorem State.launch_sink (m : Memory) (bs : List Byte) : (State.launch m bs).sink = [] := rfl
@[simp] theorem State.launch_phase (m : Memory) (bs : List Byte) : (State.launch m bs).phase = .boundary := rfl
@[simp] theorem State.launch_reg (m : Memory) (bs : List Byte) (r : Reg) : (State.launch m bs).reg r = 0x0000 := by
  cases r <;> rfl

end Sys2Proof.Machine
end

