-- ==== Sys2Proof/Laws/PerInstr.lean ====
section
/-! SUPPORT. A statement about every instruction, one lemma for each constructor: the encoder's word fits the row of
spec/opcode_table.json that the constructor stands for. -/

namespace Sys2Proof.Laws

/-- The mask of an instruction's row. -/
def rowMask : Instr → Word
  | .addR _ _ _ => 0xF020
  | .addI _ _ _ => 0xF020
  | .andR _ _ _ => 0xF020
  | .andI _ _ _ => 0xF020
  | .not _ _ => 0xF000
  | .br _ _ => 0xF000
  | .jmp _ => 0xF000
  | .jsr _ => 0xF800
  | .jsrr _ => 0xF800
  | .ld _ _ => 0xF000
  | .ldi _ _ => 0xF000
  | .ldr _ _ _ => 0xF000
  | .lea _ _ => 0xF000
  | .st _ _ => 0xF000
  | .sti _ _ => 0xF000
  | .str _ _ _ => 0xF000
  | .trap _ => 0xF000
  | .rti => 0xF000
  | .reserved => 0xF000
  | .ret => 0xF1C0
  | .getc => 0xF0FF
  | .out => 0xF0FF
  | .puts => 0xF0FF
  | .in_ => 0xF0FF
  | .putsp => 0xF0FF
  | .halt => 0xF0FF

/-- The match of an instruction's row. -/
def rowMatch : Instr → Word
  | .addR _ _ _ => 0x1000
  | .addI _ _ _ => 0x1020
  | .andR _ _ _ => 0x5000
  | .andI _ _ _ => 0x5020
  | .not _ _ => 0x9000
  | .br _ _ => 0x0000
  | .jmp _ => 0xC000
  | .jsr _ => 0x4800
  | .jsrr _ => 0x4000
  | .ld _ _ => 0x2000
  | .ldi _ _ => 0xA000
  | .ldr _ _ _ => 0x6000
  | .lea _ _ => 0xE000
  | .st _ _ => 0x3000
  | .sti _ _ => 0xB000
  | .str _ _ _ => 0x7000
  | .trap _ => 0xF000
  | .rti => 0x8000
  | .reserved => 0xD000
  | .ret => 0xC1C0
  | .getc => 0xF020
  | .out => 0xF021
  | .puts => 0xF022
  | .in_ => 0xF023
  | .putsp => 0xF024
  | .halt => 0xF025

/-- The word of the instruction has exactly the fixed bits of its row. -/
def EncodeFitsRow.Statement (i : Instr) : Prop := encode i &&& rowMask i = rowMatch i

/-- Two words are equal when their sixteen bits are. -/
theorem word_eq_of_bits {v w : Word} (h : ∀ i : Fin 16, v.getLsbD i = w.getLsbD i) : v = w :=
  BitVec.eq_of_getLsbD_eq fun i hi => h ⟨i, hi⟩

theorem EncodeFitsRow.addR (dr : Reg) (sr1 : Reg) (sr2 : Reg) : EncodeFitsRow.Statement (.addR dr sr1 sr2) := by
  refine word_eq_of_bits fun i => ?_
  simp only [encode, encodeR3, rowMask, rowMatch]
  fin_cases i <;> simp [Opcode.bits]

theorem EncodeFitsRow.addI (dr : Reg) (sr1 : Reg) (imm5 : BitVec 5) : EncodeFitsRow.Statement (.addI dr sr1 imm5) := by
  refine word_eq_of_bits fun i => ?_
  simp only [encode, encodeI5, rowMask, rowMatch]
  fin_cases i <;> simp [Opcode.bits]

theorem EncodeFitsRow.andR (dr : Reg) (sr1 : Reg) (sr2 : Reg) : EncodeFitsRow.Statement (.andR dr sr1 sr2) := by
  refine word_eq_of_bits fun i => ?_
  simp only [encode, encodeR3, rowMask, rowMatch]
  fin_cases i <;> simp [Opcode.bits]

theorem EncodeFitsRow.andI (dr : Reg) (sr1 : Reg) (imm5 : BitVec 5) : EncodeFitsRow.Statement (.andI dr sr1 imm5) := by
  refine word_eq_of_bits fun i => ?_
  simp only [encode, encodeI5, rowMask, rowMatch]
  fin_cases i <;> simp [Opcode.bits]

theorem EncodeFitsRow.not (dr : Reg) (sr : Reg) : EncodeFitsRow.Statement (.not dr sr) := by
  refine word_eq_of_bits fun i => ?_
  simp only [encode, encodeB6, rowMask, rowMatch]
  fin_cases i <;> simp [Opcode.bits]

theorem EncodeFitsRow.br (cond : BitVec 3) (offset9 : BitVec 9) : EncodeFitsRow.Statement (.br cond offset9) := by
  refine word_eq_of_bits fun i => ?_
  simp only [encode, encodePc9, rowMask, rowMatch]
  fin_cases i <;> simp [Opcode.bits]

theorem EncodeFitsRow.jmp (baseR : Reg) : EncodeFitsRow.Statement (.jmp baseR) := by
  refine word_eq_of_bits fun i => ?_
  simp only [encode, encodeBase, rowMask, rowMatch]
  fin_cases i <;> simp [Opcode.bits]

theorem EncodeFitsRow.jsr (offset11 : BitVec 11) : EncodeFitsRow.Statement (.jsr offset11) := by
  refine word_eq_of_bits fun i => ?_
  simp only [encode, encodeJ11, rowMask, rowMatch]
  fin_cases i <;> simp [Opcode.bits]

theorem EncodeFitsRow.jsrr (baseR : Reg) : EncodeFitsRow.Statement (.jsrr baseR) := by
  refine word_eq_of_bits fun i => ?_
  simp only [encode, encodeBase, rowMask, rowMatch]
  fin_cases i <;> simp [Opcode.bits]

theorem EncodeFitsRow.ld (dr : Reg) (offset9 : BitVec 9) : EncodeFitsRow.Statement (.ld dr offset9) := by
  refine word_eq_of_bits fun i => ?_
  simp only [encode, encodePc9, rowMask, rowMatch]
  fin_cases i <;> simp [Opcode.bits]

theorem EncodeFitsRow.ldi (dr : Reg) (offset9 : BitVec 9) : EncodeFitsRow.Statement (.ldi dr offset9) := by
  refine word_eq_of_bits fun i => ?_
  simp only [encode, encodePc9, rowMask, rowMatch]
  fin_cases i <;> simp [Opcode.bits]

theorem EncodeFitsRow.ldr (dr : Reg) (baseR : Reg) (offset6 : BitVec 6) : EncodeFitsRow.Statement (.ldr dr baseR offset6) := by
  refine word_eq_of_bits fun i => ?_
  simp only [encode, encodeB6, rowMask, rowMatch]
  fin_cases i <;> simp [Opcode.bits]

theorem EncodeFitsRow.lea (dr : Reg) (offset9 : BitVec 9) : EncodeFitsRow.Statement (.lea dr offset9) := by
  refine word_eq_of_bits fun i => ?_
  simp only [encode, encodePc9, rowMask, rowMatch]
  fin_cases i <;> simp [Opcode.bits]

theorem EncodeFitsRow.st (sr : Reg) (offset9 : BitVec 9) : EncodeFitsRow.Statement (.st sr offset9) := by
  refine word_eq_of_bits fun i => ?_
  simp only [encode, encodePc9, rowMask, rowMatch]
  fin_cases i <;> simp [Opcode.bits]

theorem EncodeFitsRow.sti (sr : Reg) (offset9 : BitVec 9) : EncodeFitsRow.Statement (.sti sr offset9) := by
  refine word_eq_of_bits fun i => ?_
  simp only [encode, encodePc9, rowMask, rowMatch]
  fin_cases i <;> simp [Opcode.bits]

theorem EncodeFitsRow.str (sr : Reg) (baseR : Reg) (offset6 : BitVec 6) : EncodeFitsRow.Statement (.str sr baseR offset6) := by
  refine word_eq_of_bits fun i => ?_
  simp only [encode, encodeB6, rowMask, rowMatch]
  fin_cases i <;> simp [Opcode.bits]

theorem EncodeFitsRow.trap (vector : BitVec 8) : EncodeFitsRow.Statement (.trap vector) := by
  refine word_eq_of_bits fun i => ?_
  simp only [encode, encodeT8, rowMask, rowMatch]
  fin_cases i <;> simp [Opcode.bits]

theorem EncodeFitsRow.rti : EncodeFitsRow.Statement .rti :=
  show encode .rti &&& rowMask .rti = rowMatch .rti by decide

theorem EncodeFitsRow.reserved : EncodeFitsRow.Statement .reserved :=
  show encode .reserved &&& rowMask .reserved = rowMatch .reserved by decide

theorem EncodeFitsRow.ret : EncodeFitsRow.Statement .ret :=
  show encode .ret &&& rowMask .ret = rowMatch .ret by decide

theorem EncodeFitsRow.getc : EncodeFitsRow.Statement .getc :=
  show encode .getc &&& rowMask .getc = rowMatch .getc by decide

theorem EncodeFitsRow.out : EncodeFitsRow.Statement .out :=
  show encode .out &&& rowMask .out = rowMatch .out by decide

theorem EncodeFitsRow.puts : EncodeFitsRow.Statement .puts :=
  show encode .puts &&& rowMask .puts = rowMatch .puts by decide

theorem EncodeFitsRow.in_ : EncodeFitsRow.Statement .in_ :=
  show encode .in_ &&& rowMask .in_ = rowMatch .in_ by decide

theorem EncodeFitsRow.putsp : EncodeFitsRow.Statement .putsp :=
  show encode .putsp &&& rowMask .putsp = rowMatch .putsp by decide

theorem EncodeFitsRow.halt : EncodeFitsRow.Statement .halt :=
  show encode .halt &&& rowMask .halt = rowMatch .halt by decide

end Sys2Proof.Laws
end

