-- ==== Sys2Proof/Laws/Step.lean ====
section
/-! SUPPORT. What the trap dispatcher, the end of a cycle and a step can do, once each. -/

namespace Sys2Proof.Machine

/-- Everything the trap dispatcher can do. -/
theorem State.trapDispatch_cases (s : State) (v : BitVec 8) :
    (v = 0x20 ∧ s.trapDispatch v = s.serviceGetc) ∨ (v = 0x21 ∧ s.trapDispatch v = s.serviceOut) ∨
    (v = 0x22 ∧ s.trapDispatch v = s.servicePuts) ∨ (v = 0x23 ∧ s.trapDispatch v = s.serviceIn) ∨
    (v = 0x24 ∧ s.trapDispatch v = s.servicePutsp) ∨ (v = 0x25 ∧ s.trapDispatch v = s.serviceHalt) ∨
    ((v.toNat < 0x20 ∨ 0x25 < v.toNat) ∧ s.trapDispatch v = s) := by
  by_cases h : v.toNat < 0x20 ∨ 0x25 < v.toNat
  · have hne : ∀ k : BitVec 8, 0x20 ≤ k.toNat → k.toNat ≤ 0x25 → v ≠ k := by rintro k _ _ rfl; omega
    simp [State.trapDispatch, hne, h]
  · obtain ⟨n, rfl⟩ : ∃ n : Fin 256, v = BitVec.ofFin n := ⟨v.toFin, rfl⟩
    obtain ⟨n, hn⟩ := n
    have hlo : 0x20 ≤ n := by simp at h; omega
    have hhi : n ≤ 0x25 := by simp at h; omega
    interval_cases n <;> simp [State.trapDispatch]

/-- A complete cycle ends as its handler leaves it, one that is not complete with PC back at its instruction. -/
theorem State.endCycle_eq (t : State) (fetchPc : Word) :
    t.endCycle fetchPc = if t.phase = .boundary then t else t.withPc fetchPc := by
  unfold State.endCycle
  cases h : t.phase <;> simp

/-- A step that answers a next state either issues no cycle and changes nothing, or is the end of a cycle whose handler
answered. -/
theorem step_next_cases (s t : State) (h : step s = .next t) :
    (s.issuesCycle = false ∧ t = s) ∨
      ∃ u, s.issuesCycle = true ∧ exec (decode s.fetch) s.beginCycle = .next u ∧ t = u.endCycle s.pc := by
  unfold step at h
  split at h
  · split at h
    · exact .inr ⟨_, ‹_›, ‹_›, by cases h; rfl⟩
    · cases h
    · cases h
  · cases h
    exact .inl ⟨by simp_all, rfl⟩

/-- A machine issues no cycle exactly when it is HALTED or in an endless scan. -/
theorem State.issuesCycle_iff (s : State) :
    s.issuesCycle = true ↔ s.run = .running ∧ s.phase ≠ .endlessScan := by
  simp [State.issuesCycle]

/-- One step of a run. -/
theorem core_run_succ (k : Nat) (s t : State) (h : step s = .next t) :
    Host.Core.run core (k + 1) s = Host.Core.run core k t := by
  have hc : core.step s = .next t := h
  simp only [Host.Core.run]
  rw [hc]

end Sys2Proof.Machine
end

