-- ==== Sys2Proof/Tests/Slice0.lean ====
section
/-! SUPPORT. Tests of the model's own. Words and results come from the rules' examples and from `95_test_vectors.md`
(the vector is named); each execution test is one step. The theorems named test_witness_<statement> give a concrete state
and operands that meet every hypothesis of that statement, and of each of its clauses. -/

namespace Sys2Proof.Tests

open Sys2Proof.Machine

/-- A machine at reset with one word placed at a program counter. -/
def word (w : Word) (pc : Word := 0x3000) : State := (State.reset.withPc pc).withFetchWord 16 w.toNat

/-- The state after one step. -/
def one (s : State) : State :=
  match step s with
  | .next t => t
  | .fault _ => s
  | .refused _ => s

/-- A memory in which every word is the same, as a list. -/
def filled (v : Word) : Nat → Memory
  | 0 => []
  | n + 1 => filled v n ++ [(n, v)]

/-! ### Well-formedness: each check refuses an ill-formed term -/

theorem test_wf_refuses_jmp_r7 : (Instr.jmp .r7).wellFormed = false := by decide
theorem test_wf_accepts_jmp_r6 : (Instr.jmp .r6).wellFormed = true := by decide
theorem test_wf_refuses_service_vectors : (Instr.trap 0x20).wellFormed = false ∧ (Instr.trap 0x21).wellFormed = false ∧
    (Instr.trap 0x22).wellFormed = false ∧ (Instr.trap 0x23).wellFormed = false ∧
    (Instr.trap 0x24).wellFormed = false ∧ (Instr.trap 0x25).wellFormed = false := by decide
theorem test_wf_accepts_other_vectors : (Instr.trap 0x1F).wellFormed = true ∧ (Instr.trap 0x26).wellFormed = true := by
  decide

/-! ### Decoding: every constructor, from a word written out from its pattern in rule R63 -/

/-- ADD R0, R1, R2: 0x1042, rule R100. -/
theorem test_decode_addR : decode 0b0001_000_001_0_00_010 = .addR .r0 .r1 .r2 := by decide
/-- ADD R0, R1, #-3: 0x107D, rule R101. -/
theorem test_decode_addI : decode 0b0001_000_001_1_11101 = .addI .r0 .r1 0b11101 := by decide
/-- AND R2, R3, R4: 0x54C4, rule R102. -/
theorem test_decode_andR : decode 0b0101_010_011_0_00_100 = .andR .r2 .r3 .r4 := by decide
/-- AND R2, R2, #0: 0x54A0, rule R103. -/
theorem test_decode_andI : decode 0b0101_010_010_1_00000 = .andI .r2 .r2 0 := by decide
/-- NOT R4, R5: 0x997F, rule R104. -/
theorem test_decode_not : decode 0b1001_100_101_111111 = .not .r4 .r5 := by decide
/-- BRz -2: 0x05FE, rule R110. -/
theorem test_decode_br : decode 0b0000_010_111111110 = .br 0b010 0b111111110 := by decide
/-- JMP R3: 0xC0C0, rule R111. -/
theorem test_decode_jmp : decode 0b1100_000_011_000000 = .jmp .r3 := by decide
/-- vector JMP-1: 0xCEFF. -/
theorem test_decode_jmp_unread : decode 0b1100_111_011_111111 = .jmp .r3 := by decide
/-- vector JSR-1: 0x4C00. -/
theorem test_decode_jsr : decode 0b0100_1_10000000000 = .jsr 0b10000000000 := by decide
/-- vector JSRR-1: 0x4080. -/
theorem test_decode_jsrr : decode 0b0100_0_00_010_000000 = .jsrr .r2 := by decide
/-- LD R1, #2: 0x2202, rule R120. -/
theorem test_decode_ld : decode 0b0010_001_000000010 = .ld .r1 2 := by decide
/-- LDI R0, #255: 0xA0FF, rule R121. -/
theorem test_decode_ldi : decode 0b1010_000_011111111 = .ldi .r0 255 := by decide
/-- LDR R3, R4, #-1: 0x673F, rule R122. -/
theorem test_decode_ldr : decode 0b0110_011_100_111111 = .ldr .r3 .r4 0b111111 := by decide
/-- LEA R0, #-1: 0xE1FF, rule R123. -/
theorem test_decode_lea : decode 0b1110_000_111111111 = .lea .r0 0b111111111 := by decide
/-- ST R1, #3: 0x3203, rule R130. -/
theorem test_decode_st : decode 0b0011_001_000000011 = .st .r1 3 := by decide
/-- STI R2, #-4: 0xB5FC, rule R131. -/
theorem test_decode_sti : decode 0b1011_010_111111100 = .sti .r2 0b111111100 := by decide
/-- STR R5, R6, #31: 0x7B9F, rule R132. -/
theorem test_decode_str : decode 0b0111_101_110_011111 = .str .r5 .r6 31 := by decide
/-- vector TRAP-1: 0xF026. -/
theorem test_decode_trap : decode 0b1111_0000_00100110 = .trap 0x26 := by decide
/-- vector RTI-1: 0x8FFF. -/
theorem test_decode_rti : decode 0b1000_111111111111 = .rti := by decide
/-- vector RES-2: 0xDFFF. -/
theorem test_decode_reserved : decode 0b1101_111111111111 = .reserved := by decide
/-- RET: 0xC1C0, rule R111. -/
theorem test_decode_ret : decode 0b1100_000_111_000000 = .ret := by decide
/-- 0xF020, rule R141. -/
theorem test_decode_getc : decode 0b1111_0000_00100000 = .getc := by decide
/-- 0xF021, rule R142. -/
theorem test_decode_out : decode 0b1111_0000_00100001 = .out := by decide
/-- 0xF022, rule R143. -/
theorem test_decode_puts : decode 0b1111_0000_00100010 = .puts := by decide
/-- 0xF023, rule R144. -/
theorem test_decode_in : decode 0b1111_0000_00100011 = .in_ := by decide
/-- 0xF024, rule R145. -/
theorem test_decode_putsp : decode 0b1111_0000_00100100 = .putsp := by decide
/-- vector HALT-1: 0xF125. -/
theorem test_decode_halt : decode 0b1111_0001_00100101 = .halt := by decide

/-- The encoder writes 111111 into the unread bits of NOT and 0 elsewhere (rule R71). -/
theorem test_encode_unread_bits : encode (.not .r4 .r5) = 0x997F ∧ encode (.jsrr .r7) = 0x41C0 ∧ encode .rti = 0x8000 := by
  decide
/-- The host's numbering of a one-word row. -/
theorem test_decodeTableWord : decodeTableWord 16 0x1042 = some (.addR .r0 .r1 .r2) := by decide

/-! ### Extension and flags: examples S1 and S2 -/

theorem test_sext : sext 0b10000#5 = 0xFFF0 ∧ sext 0b01111#5 = 0x000F ∧ sext 0x1FF#9 = 0xFFFF ∧ sext 0x100#9 = 0xFF00 ∧
    sext 0x20#6 = 0xFFE0 ∧ sext 0x400#11 = 0xFC00 ∧ sext 1#1 = 0xFFFF ∧ sext 0x8001#16 = 0x8001 := by decide
theorem test_flagOf : flagOf 0 = 0x0002 ∧ flagOf 1 = 0x0001 ∧ flagOf 0x7FFF = 0x0001 ∧ flagOf 0x8000 = 0x0004 ∧
    flagOf 0xFFFF = 0x0004 := by decide

/-! ### Memory and reset -/

/-- Writing the value an unlisted address reads as removes the entry. -/
theorem test_write_zero_removes : Memory.writeAt [(3, 7), (5, 9)] 3 0 = [(5, 9)] := by decide
theorem test_write_keeps_order : Memory.writeAt [(3, 7), (5, 9)] 4 1 = [(3, 7), (4, 1), (5, 9)] := by decide
theorem test_reset_memory_wf : Memory.wf State.reset.mem = true := by decide

/-! ### Operate -/

/-- ADD-1. -/
theorem test_add_overflow_wraps :
    let t := one ((word 0x1021).withReg .r0 0x7FFF)
    t.regs.r0 = 0x8000 ∧ t.cond = 0x0004 ∧ t.pc = 0x3001 := by decide
/-- ADD-5. -/
theorem test_add_register_same :
    let t := one ((word 0x1241).withReg .r1 0x4000)
    t.regs.r1 = 0x8000 ∧ t.cond = 0x0004 := by decide
/-- S4. -/
theorem test_add_immediate_negative :
    let t := one ((word 0x107D).withReg .r1 5)
    t.regs.r0 = 2 ∧ t.cond = 0x0001 := by decide
/-- ADD-3. -/
theorem test_add_immediate_zero :
    let t := one ((word 0x1070).withReg .r1 0x0010)
    t.regs.r0 = 0 ∧ t.cond = 0x0002 := by decide
/-- AND-3. -/
theorem test_and_register :
    let t := one (((word 0x5042).withReg .r1 0xFFFF).withReg .r2 0x8000)
    t.regs.r0 = 0x8000 ∧ t.cond = 0x0004 := by decide
/-- AND-2. -/
theorem test_and_immediate_negative :
    let t := one ((word 0x5070).withReg .r1 0x1234)
    t.regs.r0 = 0x1230 ∧ t.cond = 0x0001 := by decide
/-- AND-5. -/
theorem test_and_immediate_clears :
    let t := one ((word 0x5260).withReg .r1 0xBEEF)
    t.regs.r1 = 0 ∧ t.cond = 0x0002 := by decide
/-- NOT-3. -/
theorem test_not_complements :
    let t := one ((word 0x907F).withReg .r1 0x8000)
    t.regs.r0 = 0x7FFF ∧ t.cond = 0x0001 := by decide
/-- NOT-5. -/
theorem test_not_in_place :
    let t := one ((word 0x94BF).withReg .r2 0x0F0F)
    t.regs.r2 = 0xF0F0 ∧ t.cond = 0x0004 := by decide

/-! ### Control transfer -/

/-- BR-1. -/
theorem test_br_not_taken_at_reset :
    let t := one (word 0x0E05)
    t.pc = 0x3001 := by decide
/-- BR-7. -/
theorem test_br_taken_wraps :
    let t := one ((word 0x0E01 0xFFFF).withCond 0x0002)
    t.pc = 0x0001 := by decide
/-- JMP-1. -/
theorem test_jmp :
    let t := one ((word 0xCEFF).withReg .r3 0x1234)
    t.pc = 0x1234 ∧ t.regs.r3 = 0x1234 := by decide
/-- JMP-2. -/
theorem test_ret :
    let t := one ((word 0xC1C0).withReg .r7 0x3456)
    t.pc = 0x3456 := by decide
/-- JSR-1. -/
theorem test_jsr_back :
    let t := one (word 0x4C00)
    t.regs.r7 = 0x3001 ∧ t.pc = 0x2C01 := by decide
/-- JSR-3. -/
theorem test_jsr_wraps :
    let t := one ((word 0x4801 0xFFFF).withCond 0x0004)
    t.regs.r7 = 0 ∧ t.pc = 0x0001 ∧ t.cond = 0x0004 := by decide
/-- JSRR-2. -/
theorem test_jsrr_unread_bits :
    let t := one ((word 0x46BF).withReg .r2 0x4000)
    t.regs.r7 = 0x3001 ∧ t.pc = 0x4000 := by decide
/-- JSRR-3. -/
theorem test_jsrr_through_link :
    let t := one ((word 0x41C0 0x3010).withReg .r7 0x5000)
    t.pc = 0x5000 ∧ t.regs.r7 = 0x3011 := by decide

/-! ### Loads and LEA -/

/-- LD-1. -/
theorem test_ld_wraps :
    let t := one ((word 0x21FE 0x0000).memWrite 0xFFFF 0x8000)
    t.regs.r0 = 0x8000 ∧ t.cond = 0x0004 ∧ t.pc = 0x0001 := by decide
/-- LDI-1. -/
theorem test_ldi_self_pointer :
    let t := one ((word 0xA001).memWrite 0x3002 0x3002)
    t.regs.r0 = 0x3002 ∧ t.cond = 0x0001 := by decide
/-- S5. -/
theorem test_ldi_through_pointer :
    let t := one (((word 0xA0FF).memWrite 0x3100 0x4000).memWrite 0x4000 0x002A)
    t.regs.r0 = 0x002A ∧ t.cond = 0x0001 := by decide
/-- LDR-1. -/
theorem test_ldr_base_is_dest :
    let t := one (((word 0x6245).withReg .r1 0x4000).memWrite 0x4005 0x0000)
    t.regs.r1 = 0 ∧ t.cond = 0x0002 := by decide
/-- LDR-2. -/
theorem test_ldr_wraps :
    let t := one (((word 0x6081).withReg .r2 0xFFFF).memWrite 0x0000 0x1234)
    t.regs.r0 = 0x1234 := by decide
/-- S3. -/
theorem test_lea_own_address :
    let t := one (word 0xE1FF)
    t.regs.r0 = 0x3000 ∧ t.cond = 0x0001 := by decide
/-- LEA-1. -/
theorem test_lea_sets_neg :
    let t := one (word 0xE0FF 0x7F00)
    t.regs.r0 = 0x8000 ∧ t.cond = 0x0004 := by decide

/-! ### Stores -/

/-- ST-1. -/
theorem test_st_over_itself :
    let t := one ((word 0x3FFF).withReg .r7 0xBEEF)
    t.memRead 0x3000 = 0xBEEF ∧ t.pc = 0x3001 := by decide
/-- ST-2: the next fetch sees it. -/
theorem test_st_next_word :
    let t := one ((word 0x3000 0xFFFF).withReg .r0 0x1111)
    t.fetch = 0x1111 ∧ t.pc = 0x0000 := by decide
/-- STI-1. -/
theorem test_sti_self_pointer :
    let t := one (((word 0xB201).withReg .r1 0xABCD).memWrite 0x3002 0x3002)
    t.memRead 0x3002 = 0xABCD := by decide
/-- STI-2. -/
theorem test_sti_through_pointer :
    let t := one (((word 0xB000).withReg .r0 0x5555).memWrite 0x3001 0x4000)
    t.memRead 0x4000 = 0x5555 ∧ t.memRead 0x3001 = 0x4000 := by decide
/-- STR-1. -/
theorem test_str_bit_four_of_offset :
    let t := one ((word 0x7250).withReg .r1 0x4000)
    t.memRead 0x4010 = 0x4000 := by decide
/-- STR-2. -/
theorem test_str_wraps :
    let t := one (((word 0x7060).withReg .r0 0x0001).withReg .r1 0x0010)
    t.memRead 0xFFF0 = 0x0001 := by decide

/-! ### Traps -/

/-- GETC-1. -/
theorem test_getc_zero_extends :
    let t := one (((word 0xF020).withInput [0xFF]).withCond 0x0004)
    t.regs.r0 = 0x00FF ∧ t.cond = 0x0004 ∧ t.input = [] := by decide
/-- GETC-3. -/
theorem test_getc_waits :
    let t := one ((word 0xF020).withReg .r0 7)
    t.pc = 0x3000 ∧ t.regs.r0 = 7 ∧ t.phase = .inputWait := by decide
/-- OUT-1. -/
theorem test_out_low_byte :
    let t := one ((word 0xF021).withReg .r0 0xABCD)
    t.sink = [[0xCD]] ∧ t.obuf = [] ∧ t.regs.r0 = 0xABCD := by decide
/-- PUTS-2. -/
theorem test_puts_low_bytes :
    let t := one ((((word 0xF022).withReg .r0 0x4000).memWrite 0x4000 0x0100).memWrite 0x4001 0x4142)
    t.sink = [[0x00, 0x42]] ∧ t.regs.r0 = 0x4000 := by decide
/-- PUTS-3. -/
theorem test_puts_wraps :
    let t := one (((word 0xF022).withReg .r0 0xFFFF).memWrite 0xFFFF 0x0041)
    t.sink = [[0x41]] ∧ t.pc = 0x3001 := by decide
/-- IN-1: the prompt, whatever its text, then the echo. -/
theorem test_in_output : (one ((word 0xF023).withInput [0xE9])).sink = [Config.inPrompt ++ [0xE9]] := rfl
/-- IN-1: R0 is zero-extended (decision D6). -/
theorem test_in_register : (one ((word 0xF023).withInput [0xE9])).regs.r0 = 0x00E9 := by decide
/-- PUTSP-1. -/
theorem test_putsp_zero_low_byte :
    let t := one (((word 0xF024).withReg .r0 0x4000).memWrite 0x4000 0x4100)
    t.sink = [[0x00, 0x41]] := by decide
/-- PUTSP-3. -/
theorem test_putsp_odd_length :
    let t := one ((((word 0xF024).withReg .r0 0x4000).memWrite 0x4000 0x6948).memWrite 0x4001 0x0021)
    t.sink = [[0x48, 0x69, 0x21]] := by decide
/-- HALT-1: the notice, whatever its text. -/
theorem test_halt_output : (one (word 0xF125)).sink = [Config.haltNotice] := rfl
/-- HALT-1. -/
theorem test_halt_stops :
    let t := one (word 0xF125)
    t.run = .halted ∧ t.pc = 0x3001 ∧ t.haltedPort = true := by decide
/-- TRAP-1: vector 0x26 only advances PC. -/
theorem test_trap_unknown : one ((word 0xF026).withReg .r0 0x0041) = ((word 0xF026).withReg .r0 0x0041).withPc 0x3001 := by decide
/-- TRAP-2. -/
theorem test_trap_vector_zero :
    let t := one (word 0xF000)
    t.pc = 0x3001 ∧ t.regs.r7 = 0 ∧ t.sink = [] := by decide

/-! ### RTI and the reserved opcode -/

/-- RTI-1. -/
theorem test_rti :
    let t := one ((word 0x8FFF).withCond 0x0002)
    t.pc = 0x3001 ∧ t.cond = 0x0002 := by decide
/-- RES-1. -/
theorem test_reserved_wraps :
    let t := one (word 0xD000 0xFFFF)
    t.pc = 0x0000 := by decide

/-! ### Loading -/

/-- Rule R193: the first words of program P1, big-endian, at their origin. -/
theorem test_boot_big_endian :
    (State.boot [[0x30, 0x00, 0x52, 0x60, 0x54, 0xA0]] []).map (fun s => (s.memRead 0x3000, s.memRead 0x3001, s.pc)) =
      some (0x5260, 0x54A0, 0x3000) := by decide
/-- Rule R193: the address wraps, and of two images the last wins (decision D11). -/
theorem test_boot_wraps_and_last_wins :
    (State.boot [[0xFF, 0xFF, 0x00, 0x01, 0x00, 0x02], [0x00, 0x00, 0x00, 0x03]] []).map
      (fun s => (s.memRead 0xFFFF, s.memRead 0x0000)) = some (0x0001, 0x0003) := by decide

/-! ### Witnesses: the hypotheses of the statements can be met -/

theorem test_witness_SignExtendCopiesTopBit :
    1 ≤ 16 ∧ 16 ≤ 16 ∧ (0x8000#16).getLsbD (16 - 1) = true ∧ (1#1).getLsbD (1 - 1) = true ∧ (0x0F#5).getLsbD (5 - 1) = false := by decide
theorem test_witness_ZeroExtendClearsHighBits :
    1 ≤ 8 ∧ 8 ≤ 16 ∧ (zext 0xFF#8).getLsbD 7 = true ∧ (zext 0xFF#8).getLsbD 8 = false := by decide
theorem test_witness_SetCCFollowsSign :
    (State.reset.reg .r0).toInt = 0 ∧ ((State.reset.withReg .r0 0x8000).reg .r0).toInt < 0 ∧
      0 < ((State.reset.withReg .r0 0x7FFF).reg .r0).toInt := by decide
theorem test_witness_MemWriteSetsOneWord :
    Memory.wf (word 0x1042).mem = true ∧ (word 0x1042).memRead 0x3000 = 0x1042 := by decide
theorem test_witness_BootStartsAtResetPc :
    (State.boot [[0x40, 0x00, 0x12, 0x34]] []).isSome = true := by decide
theorem test_witness_BootMeetsInvariant :
    (State.boot [[0x40, 0x00, 0x12, 0x34], [0x30, 0x00]] [0x61]).isSome = true := by decide
theorem test_witness_BootFailsOnBadImage :
    [0x30] ∈ [([0x30, 0x00] : List Byte), [0x30]] ∧ ([0x30] : List Byte).length % 2 = 1 ∧ ([] : List Byte).length = 0 := by decide
theorem test_witness_BootFailsOnBadImage_boots :
    [([0x30, 0x00] : List Byte), [0x40, 0x00, 0x12, 0x34]] ≠ [] ∧
      ∀ image ∈ [([0x30, 0x00] : List Byte), [0x40, 0x00, 0x12, 0x34]], image.length % 2 = 0 ∧ 2 ≤ image.length := by decide
theorem test_witness_ImageCopiedToOrigin :
    Memory.wf [] = true ∧ ([0xFF, 0xFF, 0x00, 0x01, 0x00, 0x02] : List Byte).length % 2 = 0 ∧
      imageAddress [0xFF, 0xFF, 0x00, 0x01, 0x00, 0x02] 1 = 65535 ∧ imageAddress [0xFF, 0xFF, 0x00, 0x01, 0x00, 0x02] 2 = 0 ∧
      imageWordAt [0xFF, 0xFF, 0x00, 0x01, 0x00, 0x02] 2 = 2 := by decide
theorem test_witness_StepRunsDecodedInstruction :
    (word 0x8000).run = .running ∧ (word 0x8000).phase ≠ .endlessScan ∧ decode ((word 0x8000).memRead (word 0x8000).pc) = .rti ∧
      exec .rti ((word 0x8000).withPc 0x3001) = .next ((word 0x8000).withPc 0x3001) := ⟨rfl, by decide, by decide, rfl⟩
theorem test_witness_StepRunsDecodedInstruction_waits :
    (word 0xF020).phase = .boundary ∧ decode (word 0xF020).fetch = .getc ∧ exec .getc ((word 0xF020).withPc 0x3001) =
      .next (((word 0xF020).withPc 0x3001).withPhase .inputWait) := ⟨rfl, by decide, rfl⟩
theorem test_witness_StepRunsDecodedInstruction_stays :
    (State.reset.withRun .halted).run = .halted ∧ (State.reset.withPhase .endlessScan).phase = .endlessScan := by decide
/-- The invariant holds at a state that is not reset, and a step from it answers. -/
theorem test_witness_StepKeepsInvariant :
    Inv (word 0x1021) ∧ step (word 0x1021) = .next (one (word 0x1021)) := ⟨⟨by decide, .inl rfl, rfl⟩, rfl⟩
/-- The invariant also holds while an IN waits. -/
theorem test_witness_StepKeepsInvariant_waiting :
    Inv (one (word 0xF023)) ∧ (one (word 0xF023)).phase = .inputWait := ⟨⟨by decide, .inl rfl, .inr ⟨by decide, rfl⟩⟩, rfl⟩
theorem test_witness_HaltedOnlyByHaltAndTerminal :
    step (word 0xF025) = .next (one (word 0xF025)) ∧ (word 0xF025).run = .running ∧ (one (word 0xF025)).run = .halted := ⟨rfl, rfl, rfl⟩
theorem test_witness_DecodeEncodeRoundTrip :
    (Instr.str .r5 .r6 31).wellFormed = true ∧ (Instr.jmp .r3).wellFormed = true ∧ (Instr.trap 0xFF).wellFormed = true := by decide
theorem test_witness_DecodeIgnoresUnreadBits :
    ((0x1042 : Word) ^^^ 0x105A) &&& readBits (decode 0x1042) = 0 ∧ ((0xF025 : Word) ^^^ 0xFF25) &&& readBits (decode 0xF025) = 0 := by decide
/-- Each row's match is met by the word of a decode test above; two rows carry a further condition. -/
theorem test_witness_DecodeFollowsOpcodeTable :
    (0xC0C0 : Word) &&& 0xF000 = 0xC000 ∧ (0xC0C0 : Word) &&& 0xF1C0 ≠ 0xC1C0 ∧ (0xF0FF : Word) &&& 0xF000 = 0xF000 ∧
      isServiceVector (vectorField 0xF0FF) = false ∧ (0x1042 : Word) &&& 0xF020 = 0x1000 ∧ (0x47FF : Word) &&& 0xF800 = 0x4000 := by decide
theorem test_witness_AddRegisterAddsAndSetsFlags :
    opcodeOf 0x1042 = .add ∧ (0x1042 : Word).getLsbD 5 = false := by decide
theorem test_witness_AddImmediateAddsAndSetsFlags :
    opcodeOf 0x107D = .add ∧ (0x107D : Word).getLsbD 5 = true := by decide
theorem test_witness_AndRegisterAndsAndSetsFlags :
    opcodeOf 0x54C4 = .and ∧ (0x54C4 : Word).getLsbD 5 = false := by decide
theorem test_witness_AndImmediateAndsAndSetsFlags :
    opcodeOf 0x54A0 = .and ∧ (0x54A0 : Word).getLsbD 5 = true := by decide
theorem test_witness_NotComplementsAndSetsFlags :
    opcodeOf 0x997F = .not := by decide
theorem test_witness_BranchAddsOffsetWhenMasked :
    opcodeOf 0x05FE = .br ∧ (zext 0b010#3 &&& condZro) ≠ 0 ∧ (zext 0b101#3 &&& condZro) = 0 := by decide
theorem test_witness_JumpGoesToBaseRegister :
    opcodeOf 0xC0C0 = .jmp ∧ opcodeOf 0xC1C0 = .jmp := by decide
theorem test_witness_JsrSavesReturnAddress :
    opcodeOf 0x4800 = .jsr ∧ (0x4800 : Word).getLsbD 11 = true := by decide
theorem test_witness_JsrrReadsBaseBeforeLink :
    opcodeOf 0x41C0 = .jsr ∧ (0x41C0 : Word).getLsbD 11 = false := by decide
theorem test_witness_LdLoadsPcRelative :
    opcodeOf 0x2202 = .ld := by decide
theorem test_witness_LdiLoadsThroughPointer :
    opcodeOf 0xA0FF = .ldi := by decide
theorem test_witness_LdrLoadsBaseRelative :
    opcodeOf 0x673F = .ldr := by decide
theorem test_witness_LeaLoadsAddress :
    opcodeOf 0xE1FF = .lea := by decide
theorem test_witness_StStoresPcRelative :
    opcodeOf 0x3203 = .st ∧ Memory.wf (word 0x3203).mem = true := by decide
theorem test_witness_StiStoresThroughPointer :
    opcodeOf 0xB5FC = .sti ∧ Memory.wf (word 0xB5FC).mem = true := by decide
theorem test_witness_StrStoresBaseRelative :
    opcodeOf 0x7B9F = .str ∧ Memory.wf (word 0x7B9F).mem = true := by decide
theorem test_witness_BranchTestsNamedFlag :
    CondLegal State.reset ∧ CondLegal (State.reset.withCond condNeg) := ⟨.inl rfl, .inr (.inr (.inr rfl))⟩
theorem test_witness_FlagValueOnceSetStays :
    step ((word 0x1021).withCond condZro) = .next (one ((word 0x1021).withCond condZro)) ∧
      FlagValue ((word 0x1021).withCond condZro).cond ∧ State.reset.cond = 0x0000 := ⟨rfl, .inr (.inl rfl), rfl⟩
theorem test_witness_StoredWordIsFetchedNext :
    Memory.wf (word 0x3000).mem = true ∧ (word 0x3000).run = .running ∧ (word 0x3000).phase = .boundary ∧
      decode (word 0x3000).fetch = .st .r0 0 := by decide
theorem test_witness_TrapDispatchesOnVector :
    opcodeOf 0xF125 = .trap ∧ (0x1F : BitVec 8).toNat < 0x20 ∧ 0x25 < (0x26 : BitVec 8).toNat := by decide
theorem test_witness_OutWritesLowByte :
    opcodeOf 0xFF21 = .trap ∧ (0xFF21 : Word).extractLsb' 0 8 = 0x21 := by decide
theorem test_witness_GetcStoresNextByte :
    ((word 0xF020).withInput [0xFF, 0x61]).input = 0xFF :: [0x61] := by decide
/-- Strings of length 0 and 1, the second one across the end of memory. -/
theorem test_witness_PutsWritesUntilZeroWord :
    (word 0xF022).memRead (wordsAfter ((word 0xF022).reg .r0) 0) = 0 ∧
      (∀ j : Fin 1, (((word 0xF022).withReg .r0 0xFFFF).memWrite 0xFFFF 0x41).memRead (wordsAfter 0xFFFF j) ≠ 0) ∧
      (((word 0xF022).withReg .r0 0xFFFF).memWrite 0xFFFF 0x41).memRead (wordsAfter 0xFFFF 1) = 0 := by decide
theorem test_witness_PutspWritesTwoBytesPerWord :
    (word 0xF024).memRead (wordsAfter ((word 0xF024).reg .r0) 0) = 0 ∧
      (∀ j : Fin 1, (((word 0xF024).withReg .r0 0xFFFF).memWrite 0xFFFF 0x41).memRead (wordsAfter 0xFFFF j) ≠ 0) ∧
      (((word 0xF024).withReg .r0 0xFFFF).memWrite 0xFFFF 0x41).memRead (wordsAfter 0xFFFF 1) = 0 := by decide

/-- Every word below `n` of a filled memory holds the value. -/
theorem filled_readAt (v : Word) (n a : Nat) (h : a < n) : Memory.readAt (filled v n) a = v := by
  have happ : ∀ (m : Memory) (c : Nat × Word) (b : Nat), Memory.readAt (m ++ [c]) b =
      if m.any (fun d => b == d.1) then Memory.readAt m b else Memory.readAt [c] b := by
    intro m c b
    induction m with
    | nil => rfl
    | cons d m ih =>
      by_cases hb : b = d.1
      · simp [Memory.readAt, hb]
      · simp only [List.cons_append, Memory.readAt, hb, if_false, ih, List.any_cons]
        simp [hb]
  induction n with
  | zero => omega
  | succ n ih =>
    rw [filled, happ]
    split
    · rename_i hany
      by_cases hn : a < n
      · exact ih hn
      · have hbound : ∀ (k : Nat) (d : Nat × Word), d ∈ filled v k → d.1 < k := by
          intro k
          induction k with
          | zero => simp [filled]
          | succ k ihk =>
            intro d hd
            rcases List.mem_append.1 hd with hd | hd
            · exact Nat.lt_succ_of_lt (ihk d hd)
            · simp at hd; simp [hd]
        obtain ⟨d, hd, hda⟩ := List.any_eq_true.1 hany
        have := hbound n d hd
        simp at hda
        omega
    · rename_i hany
      by_cases hn : a = n
      · simp [Memory.readAt, hn]
      · have hlist : ∀ k, a < k → (filled v k).any (fun d => a == d.1) = true := by
          intro k hk
          induction k with
          | zero => omega
          | succ k ihk =>
            rw [filled, List.any_append]
            by_cases hak : a = k
            · simp [hak]
            · rw [ihk (by omega)]; rfl
        exact absurd (hlist n (by omega)) hany

/-- A machine whose whole memory is the word of PUTS. -/
theorem test_witness_ScanWithoutZeroNeverEnds :
    let s := State.reset.withMem (filled 0xF022 65536)
    s.run = .running ∧ s.phase = .boundary ∧ (∀ a : Word, s.memRead a ≠ 0x0000) ∧ decode s.fetch = .puts := by
  intro s
  have hall : ∀ a : Word, s.memRead a = 0xF022 := fun a => filled_readAt _ _ _ a.isLt
  refine ⟨rfl, rfl, fun a => ?_, ?_⟩
  · rw [hall a]; decide
  · rw [State.fetch, hall]; decide

theorem test_witness_InPromptsReadsAndEchoes :
    ((word 0xF023).withInput [0x79]).input = 0x79 :: [] ∧ (word 0xF023).phase ≠ .inputWait ∧
      (((word 0xF023).withInput [0x79]).withPhase .inputWait).phase = .inputWait := by decide
theorem test_witness_ReadWithoutInputWaits :
    (word 0xF020).run = .running ∧ (word 0xF020).phase = .boundary ∧ (word 0xF020).input = [] ∧
      decode (word 0xF020).fetch = .getc ∧ decode (word 0xF023).fetch = .in_ := by decide
theorem test_witness_DeliveredByteEndsWait :
    Inv (one (word 0xF020)) ∧ (one (word 0xF020)).run = .running ∧ (one (word 0xF020)).phase = .inputWait ∧
      (one (word 0xF020)).input = [] ∧ decode (one (word 0xF020)).fetch = .getc := ⟨⟨by decide, .inl rfl, .inl ⟨by decide, rfl⟩⟩, rfl, rfl, rfl, by decide⟩
/-- The same for an IN that waits. -/
theorem test_witness_DeliveredByteEndsWait_in :
    (one (word 0xF023)).run = .running ∧ (one (word 0xF023)).phase = .inputWait ∧
      (one (word 0xF023)).input = [] ∧ decode (one (word 0xF023)).fetch = .in_ := ⟨rfl, rfl, rfl, by decide⟩
theorem test_witness_TrapServicesWriteOnlyR0 :
    trapVector .puts = some 0x22 ∧ exec .puts (word 0xF022) = .next ((word 0xF022).servicePuts) := ⟨rfl, rfl⟩
theorem test_witness_TrapServicesReadOnlyR0AndMemory :
    trapVector .out = some 0x21 ∧ ((word 0xF021).withReg .r3 9).reg .r0 = (word 0xF021).reg .r0 ∧
      ((word 0xF021).withReg .r3 9).mem = (word 0xF021).mem ∧ ConsoleSame (word 0xF021) ((word 0xF021).withReg .r3 9) ∧
      exec .out (word 0xF021) = .next ((word 0xF021).serviceOut) := ⟨rfl, rfl, rfl, ⟨rfl, rfl, rfl, rfl, rfl⟩, rfl⟩
theorem test_witness_OutputServicesFlush :
    trapVector .out = some 0x21 ∧ exec .out (word 0xF021) = .next ((word 0xF021).serviceOut) ∧
      ((word 0xF021).serviceOut).phase = .boundary ∧ trapVector (.trap 0x26) = some 0x26 ∧
      exec (.trap 0x26) (word 0xF026) = .next (word 0xF026) ∧ (word 0xF026).phase = .boundary := ⟨rfl, rfl, rfl, rfl, rfl, rfl⟩
theorem test_witness_RtiAndReservedOnlyAdvancePc :
    (word 0x8FFF).fetch.extractLsb' 12 4 = 8 ∧ (word 0xDFFF).fetch.extractLsb' 12 4 = 13 ∧ (word 0x8FFF).run = .running ∧
      (word 0x8FFF).phase = .boundary ∧ (word 0xDFFF).run = .running ∧ (word 0xDFFF).phase = .boundary := by decide
theorem test_witness_OnlySevenUpdateCond :
    exec (.not .r0 .r1) State.reset = .next (State.reset.writeResult .r0 0xFFFF) ∧ flagDest (.not .r0 .r1) = some .r0 ∧
      exec .rti State.reset = .next State.reset ∧ flagDest .rti = none := ⟨rfl, rfl, rfl, rfl⟩
theorem test_witness_OnlyNamedInstructionsWriteRegisters :
    exec (.not .r0 .r1) State.reset = .next (State.reset.writeResult .r0 0xFFFF) ∧ destReg (.not .r0 .r1) ≠ some .r1 := ⟨rfl, by decide⟩
theorem test_witness_OnlyTransfersMovePc :
    (word 0x1021).run = .running ∧ (word 0x1021).phase ≠ .endlessScan ∧ isTransfer (decode (word 0x1021).fetch) = false ∧
      step (word 0x1021) = .next (one (word 0x1021)) ∧ (one (word 0x1021)).phase = .boundary := ⟨rfl, by decide, by decide, rfl, by decide⟩
theorem test_witness_OnlyTransfersMovePc_waits :
    isTransfer (decode (word 0xF020).fetch) = false ∧ step (word 0xF020) = .next (one (word 0xF020)) ∧
      (one (word 0xF020)).phase ≠ .boundary := ⟨by decide, rfl, by decide⟩
/-- One step, and the only state before it fetches no store. -/
theorem test_witness_RunWithoutStoresKeepsMemory :
    Host.Core.run core 1 (word 0x2000) = .next (one (word 0x2000)) ∧ isStore (decode (word 0x2000).fetch) = false := ⟨rfl, by decide⟩
theorem test_witness_OutputOnlyGrows :
    step (word 0xF021) = .next (one (word 0xF021)) := rfl
theorem test_witness_InputTakenInOrder :
    step ((word 0xF020).withInput [0x61]) = .next (one ((word 0xF020).withInput [0x61])) := rfl
theorem test_witness_OnlyGetcAndInDependOnInput :
    trapVector .out ≠ some 0x20 ∧ trapVector .out ≠ some 0x23 ∧ exec .out State.reset = .next State.reset.serviceOut := ⟨by decide, by decide, rfl⟩

end Sys2Proof.Tests
end

section
/-! The two extensions of a field to a word (rules R7, R8), bit by bit and as a number. -/

namespace Sys2Proof.Machine

/-- Every bit of `sext_N`: the field's own below N, its top bit from N up to the word's width. -/
theorem getLsbD_sext {n : Nat} (f : BitVec n) (i : Nat) :
    (sext f).getLsbD i = (decide (i < 16) && if i < n then f.getLsbD i else f.getLsbD (n - 1)) := by
  rw [sext, BitVec.getLsbD_signExtend, BitVec.msb_eq_getLsbD_last]

/-- A field that fits in a word keeps its two's complement value. -/
theorem toInt_sext {n : Nat} (f : BitVec n) (hn : n ≤ 16) : (sext f).toInt = f.toInt :=
  BitVec.toInt_signExtend_of_le hn

@[simp] theorem sext_word (g : Word) : sext g = g := BitVec.signExtend_eq g

/-- Every bit of `zext_N`: a field's bits from its width up are 0. -/
theorem getLsbD_zext {n : Nat} (f : BitVec n) (i : Nat) :
    (zext f).getLsbD i = (decide (i < 16) && f.getLsbD i) :=
  BitVec.getLsbD_setWidth 16 f i

/-- The two's complement value of a field, read off its top bit (the arithmetic of rule R7). -/
theorem toInt_eq_of_topBit {n : Nat} (f : BitVec n) :
    f.toInt = if f.getLsbD (n - 1) then (f.toNat : Int) - 2 ^ n else (f.toNat : Int) := by
  have hpow : ((2 ^ n : Nat) : Int) = 2 ^ n := by norm_cast
  rw [BitVec.toInt_eq_msb_cond, BitVec.msb_eq_getLsbD_last, hpow]

/-- Settles O1: the bits by `getLsbD_sext`; the value because extension keeps it. -/
theorem signExtendCopiesTopBit : Obligations.SignExtendCopiesTopBit := by
  intro n f _ hn
  refine ⟨fun i hi => ?low, fun i hni hi => ?high, ?value, sext_word⟩
  case low =>
    have hi16 : i < 16 := by omega
    rw [getLsbD_sext, decide_eq_true hi16, Bool.true_and, if_pos hi]
  case high =>
    have hin : ¬ i < n := by omega
    rw [getLsbD_sext, decide_eq_true hi, Bool.true_and, if_neg hin]
  case value => exact (toInt_sext f hn).trans (toInt_eq_of_topBit f)

/-- Settles O2: the bits by `getLsbD_zext`; at and above its width a field has no bit set. -/
theorem zeroExtendClearsHighBits : Obligations.ZeroExtendClearsHighBits := by
  intro n f _ hn
  refine ⟨fun i hi => ?low, fun i hni _ => ?high⟩
  case low =>
    have hi16 : i < 16 := by omega
    rw [getLsbD_zext, decide_eq_true hi16, Bool.true_and]
  case high =>
    have hbit : f.getLsbD i = false := BitVec.getLsbD_of_ge f i hni
    rw [getLsbD_zext, hbit, Bool.and_false]

end Sys2Proof.Machine
end

section
/-! What an instruction can do to the state, said once: `exec_effect` sorts the 26 handlers into six effects, and the
claims about every instruction are read off the effect. -/

namespace Sys2Proof.Machine

/-- What the handler of `i` may make of `s`, with what each effect says of `i`. -/
inductive ExecEffect (i : Instr) (s : State) : State → Prop where
  /-- The instructions of rule R26: write DR, then `SetCC(DR)`. -/
  | result (dr : Reg) (v : Word) (hflag : flagDest i = some dr) (hdest : destReg i = some dr) :
      ExecEffect i s (s.writeResult dr v)
  /-- BR taken, JMP and RET. -/
  | jump (target : Word) (hflag : flagDest i = none) (htransfer : isTransfer i = true) :
      ExecEffect i s (s.withPc target)
  /-- JSR and JSRR. -/
  | call (target : Word) (hflag : flagDest i = none) (hdest : destReg i = some .r7) (htransfer : isTransfer i = true) :
      ExecEffect i s ((s.withReg .r7 s.pc).withPc target)
  /-- The stores (rule R44). -/
  | store (a v : Word) (hflag : flagDest i = none) (hstore : isStore i = true) : ExecEffect i s (s.memWrite a v)
  /-- TRAP and the console services, under both spellings. -/
  | service (vector : BitVec 8) (hvector : trapVector i = some vector) : ExecEffect i s (s.trapDispatch vector)
  /-- BR not taken, RTI and the reserved opcode. -/
  | idle (hflag : flagDest i = none) : ExecEffect i s s

/-- A trap instruction runs the dispatcher on its vector, also under a service's own name (rules R72, R140). -/
theorem exec_of_trapVector {i : Instr} {vector : BitVec 8} (h : trapVector i = some vector) (s : State) :
    exec i s = .next (s.trapDispatch vector) := by
  cases i with
  | trap | getc | out | puts | in_ | putsp | halt => cases h; rfl
  | _ => cases h

/-- Every handler answers a next state, by one of the six effects. -/
theorem exec_effect (i : Instr) (s : State) : ∃ t, exec i s = .next t ∧ ExecEffect i s t := by
  cases i with
  | addR | addI | andR | andI | not | ld | ldi | ldr | lea => exact ⟨_, rfl, .result _ _ rfl rfl⟩
  | jmp | ret => exact ⟨_, rfl, .jump _ rfl rfl⟩
  | jsr | jsrr => exact ⟨_, rfl, .call _ rfl rfl rfl⟩
  | st | sti | str => exact ⟨_, rfl, .store _ _ rfl rfl⟩
  | trap | getc | out | puts | in_ | putsp | halt => exact ⟨_, exec_of_trapVector rfl s, .service _ rfl⟩
  | rti | reserved => exact ⟨_, rfl, .idle rfl⟩
  | br cond offset9 =>
    refine ⟨_, rfl, ?_⟩
    split
    · exact .jump _ rfl rfl
    · exact .idle rfl

/-- The effect of a handler that answered `t`. -/
theorem ExecEffect.of_exec {i : Instr} {s t : State} (h : exec i s = .next t) : ExecEffect i s t := by
  obtain ⟨u, hu, heffect⟩ := exec_effect i s
  cases hu.symm.trans h
  exact heffect

/-- No trap instruction is one of rule R26. -/
theorem flagDest_of_trapVector {i : Instr} {vector : BitVec 8} (h : trapVector i = some vector) :
    flagDest i = none := by
  cases i with
  | trap | getc | out | puts | in_ | putsp | halt => cases h; rfl
  | _ => cases h

/-- A service writes the same register under its own name as under TRAP. -/
theorem destReg_of_trapVector {i : Instr} {vector : BitVec 8} (h : trapVector i = some vector) :
    destReg i = destReg (.trap vector) := by
  cases i with
  | trap | getc | out | puts | in_ | putsp | halt => cases h; rfl
  | _ => cases h

/-! ### What a console service leaves unchanged (rule R148) -/

/-- COND, PC and memory are kept, and every general register but `written`. -/
structure KeepsAllBut (written : Option Reg) (s t : State) : Prop where
  cond : t.cond = s.cond
  pc : t.pc = s.pc
  mem : t.mem = s.mem
  regs : ∀ q : Reg, written ≠ some q → t.reg q = s.reg q

/-- A register write keeps all but its register. -/
theorem State.withReg_keeps (s : State) (r : Reg) (v : Word) : KeepsAllBut (some r) s (s.withReg r v) :=
  ⟨rfl, rfl, rfl, fun q hq => s.withReg_reg_other r q v fun h => hq (congrArg some h.symm)⟩

theorem State.serviceGetc_keeps (s : State) : KeepsAllBut (some .r0) s s.serviceGetc := by
  rcases s.serviceGetc_cases with ⟨_, h⟩ | ⟨b, rest, _, h⟩ <;> rw [h]
  · exact ⟨rfl, rfl, rfl, fun _ _ => rfl⟩
  · exact ⟨rfl, rfl, rfl, (s.withReg_keeps .r0 (zext b)).regs⟩

theorem State.serviceIn_keeps (s : State) : KeepsAllBut (some .r0) s s.serviceIn := by
  rcases s.serviceIn_cases with ⟨_, h⟩ | ⟨b, rest, _, h⟩ <;> rw [h]
  · exact ⟨rfl, rfl, rfl, fun _ _ => rfl⟩
  · exact ⟨rfl, rfl, rfl, (s.withReg_keeps .r0 (zext b)).regs⟩

theorem State.serviceString_keeps (s : State) (chars : Word → List Byte) :
    KeepsAllBut none s (s.serviceString chars) := by
  rcases s.serviceString_cases chars with ⟨_, h⟩ | ⟨ws, _, h⟩ <;> rw [h]
  · exact ⟨rfl, rfl, rfl, fun _ _ => rfl⟩
  · exact ⟨rfl, rfl, rfl, fun _ _ => rfl⟩

/-- Whatever its vector, a trap keeps all but the register `destReg` gives it. -/
theorem State.trapDispatch_keeps (s : State) (vector : BitVec 8) :
    KeepsAllBut (destReg (.trap vector)) s (s.trapDispatch vector) := by
  rcases s.trapDispatch_cases vector with
    ⟨rfl, h⟩ | ⟨rfl, h⟩ | ⟨rfl, h⟩ | ⟨rfl, h⟩ | ⟨rfl, h⟩ | ⟨rfl, h⟩ | ⟨_, h⟩ <;> rw [h]
  · exact s.serviceGetc_keeps
  · exact ⟨rfl, rfl, rfl, fun _ _ => rfl⟩
  · exact s.serviceString_keeps charOfWord
  · exact s.serviceIn_keeps
  · exact s.serviceString_keeps charsOfWord
  · exact ⟨rfl, rfl, rfl, fun _ _ => rfl⟩
  · exact ⟨rfl, rfl, rfl, fun _ _ => rfl⟩

/-! ### The end of a cycle -/

/-- The end of a cycle touches PC only. -/
theorem State.endCycle_eq_withPc (t : State) (fetchPc : Word) :
    t.endCycle fetchPc = t.withPc (if t.phase = .boundary then t.pc else fetchPc) := by
  rw [State.endCycle_eq]
  split <;> rfl

/-- A step that issues a cycle is the end of the cycle its handler answers. -/
theorem step_of_exec {s u : State} (hcycle : s.issuesCycle = true) (h : exec (decode s.fetch) s.beginCycle = .next u) :
    step s = .next (u.endCycle s.pc) := by
  simp [step, hcycle, h]

/-- What one step can do: nothing, or the effect of the fetched instruction and the end of its cycle. -/
theorem step_effect {s t : State} (h : step s = .next t) :
    (s.issuesCycle = false ∧ t = s) ∨
      ∃ u, s.issuesCycle = true ∧ ExecEffect (decode s.fetch) s.beginCycle u ∧ t = u.endCycle s.pc := by
  rcases step_next_cases s t h with hidle | ⟨u, hcycle, hexec, ht⟩
  · exact .inl hidle
  · exact .inr ⟨u, hcycle, .of_exec hexec, ht⟩

end Sys2Proof.Machine
end

section
/-! COND, the general registers and PC: which instructions change them (rules R22, R23, R25, R26). -/

namespace Sys2Proof.Machine

/-- Rule R25 on the value as a signed number. -/
theorem flagOf_eq_of_toInt (v : Word) :
    flagOf v = if v.toInt = 0 then condZro else if v.toInt < 0 then condNeg else condPos := by
  have hzero : v.toInt = 0 ↔ v = 0x0000 := BitVec.toInt_inj (y := 0x0000)
  have hneg : v.getLsbD 15 = decide (v.toInt < 0) :=
    (BitVec.msb_eq_getLsbD_last v).symm.trans (BitVec.msb_eq_toInt (x := v))
  simp only [flagOf, hzero, hneg, decide_eq_true_eq]

/-- Settles O3: `SetCC` writes the flag value of the register, which follows its sign. -/
theorem setCCFollowsSign : Obligations.SetCCFollowsSign := by
  intro s r
  refine ⟨fun hzero => ?_, fun hneg => ?_, fun hpos => ?_⟩ <;>
    refine congrArg s.withCond ((flagOf_eq_of_toInt _).trans ?_)
  · rw [if_pos hzero]
  · rw [if_neg hneg.ne, if_pos hneg]
  · rw [if_neg hpos.ne', if_neg hpos.not_gt]

/-- Settles O54: only the effect `result` writes COND, and it writes the flag of the value it puts into DR. -/
theorem onlySevenUpdateCond : Obligations.OnlySevenUpdateCond := by
  intro i s t h
  cases ExecEffect.of_exec h with
  | result dr v hflag =>
    refine ⟨fun r hr => ?_, fun hnone => by simp [hflag] at hnone⟩
    obtain rfl : dr = r := Option.some.inj (hflag.symm.trans hr)
    rw [State.writeResult_cond, State.writeResult_reg_same]
  | jump _ hflag | call _ hflag | store _ _ hflag | idle hflag => exact ⟨by simp [hflag], fun _ => rfl⟩
  | service vector hvector =>
    exact ⟨by simp [flagDest_of_trapVector hvector], fun _ => (s.trapDispatch_keeps vector).cond⟩

/-- Settles O55: each effect writes no register but the one `destReg` names. -/
theorem onlyNamedInstructionsWriteRegisters : Obligations.OnlyNamedInstructionsWriteRegisters := by
  intro i s t q h hq
  have hne : ∀ r : Reg, destReg i = some r → q ≠ r := by rintro r hr rfl; exact hq hr
  cases ExecEffect.of_exec h with
  | result dr v _ hdest => exact s.writeResult_reg_other dr q v (hne dr hdest)
  | call target _ hdest => exact s.withReg_reg_other .r7 q s.pc (hne .r7 hdest)
  | jump | store | idle => rfl
  | service vector hvector =>
    exact (s.trapDispatch_keeps vector).regs q (destReg_of_trapVector hvector ▸ hq)

/-- A handler that is no control transfer leaves PC as it got it. -/
theorem ExecEffect.pc_eq {i : Instr} {s t : State} (h : ExecEffect i s t) (htransfer : isTransfer i = false) :
    t.pc = s.pc := by
  cases h with
  | result | store | idle => rfl
  | jump _ _ hi | call _ _ _ hi => simp [htransfer] at hi
  | service vector => exact (s.trapDispatch_keeps vector).pc

/-- Settles O56: the handler keeps the incremented PC, and the end of an incomplete cycle puts the old one back. -/
theorem onlyTransfersMovePc : Obligations.OnlyTransfersMovePc := by
  intro s t hrun hphase htransfer h
  rcases step_effect h with ⟨hidle, _⟩ | ⟨u, _, heffect, rfl⟩
  · simp [s.issuesCycle_iff.2 ⟨hrun, hphase⟩] at hidle
  · have hpc : u.pc = s.pc + 1 := heffect.pc_eq htransfer
    rw [State.endCycle_eq_withPc]
    refine ⟨fun hdone => ?_, fun hwait => ?_⟩
    · exact (if_pos hdone).trans hpc
    · exact if_neg hwait

end Sys2Proof.Machine
end

section
/-! The output ports: what is delivered and buffered only grows (rules R31, R202). -/

namespace Sys2Proof.Machine

/-- From `s` to `t` the sink has received zero or more flushes, and the bytes delivered and buffered have grown at
their end only. -/
def OutputExtends (s t : State) : Prop :=
  (∃ chunks : List (List Byte), t.sink = s.sink ++ chunks) ∧
    ∃ bytes : List Byte, t.received ++ t.obuf = s.received ++ s.obuf ++ bytes

theorem OutputExtends.of_same {s t : State} (hsink : t.sink = s.sink) (hobuf : t.obuf = s.obuf) : OutputExtends s t :=
  ⟨⟨[], by simp [hsink]⟩, [], by simp [State.received, hsink, hobuf]⟩

theorem OutputExtends.trans {s t u : State} (h : OutputExtends s t) (h' : OutputExtends t u) : OutputExtends s u := by
  obtain ⟨⟨chunks, hchunks⟩, bytes, hbytes⟩ := h
  obtain ⟨⟨chunks', hchunks'⟩, bytes', hbytes'⟩ := h'
  exact ⟨⟨chunks ++ chunks', by simp [hchunks', hchunks]⟩, bytes ++ bytes', by simp [hbytes', hbytes]⟩

theorem State.outBytes_outputExtends (s : State) (bs : List Byte) : OutputExtends s (s.outBytes bs) :=
  ⟨⟨[], by simp⟩, bs, by simp [State.received]⟩

/-- `Flush()` moves the buffered bytes to the end of the delivered ones and adds none. -/
theorem State.flush_outputExtends (s : State) : OutputExtends s s.flush :=
  ⟨⟨[s.obuf], rfl⟩, [], by simp [State.received]⟩

theorem State.outBytes_flush_outputExtends (s : State) (bs : List Byte) : OutputExtends s (s.outBytes bs).flush :=
  (s.outBytes_outputExtends bs).trans (s.outBytes bs).flush_outputExtends

theorem State.serviceGetc_outputExtends (s : State) : OutputExtends s s.serviceGetc := by
  rcases s.serviceGetc_cases with ⟨_, h⟩ | ⟨b, rest, _, h⟩ <;> rw [h] <;> exact .of_same rfl rfl

theorem State.promptOnce_outputExtends (s : State) : OutputExtends s s.promptOnce := by
  rcases s.promptOnce_cases with ⟨_, h⟩ | ⟨_, h⟩ <;> rw [h]
  · exact .of_same rfl rfl
  · exact s.outBytes_outputExtends Config.inPrompt

/-- IN extends the output by its prompt, and by the echo when it takes a byte. -/
theorem State.serviceIn_outputExtends (s : State) : OutputExtends s s.serviceIn := by
  have hprompt : OutputExtends s (s.withObuf s.promptOnce.obuf) :=
    s.promptOnce_eq ▸ s.promptOnce_outputExtends
  rcases s.serviceIn_cases with ⟨_, h⟩ | ⟨b, rest, _, h⟩ <;> rw [h]
  · exact hprompt.trans (.of_same rfl rfl)
  · exact (hprompt.trans (State.outBytes_flush_outputExtends _ [b])).trans (.of_same rfl rfl)

theorem State.serviceString_outputExtends (s : State) (chars : Word → List Byte) :
    OutputExtends s (s.serviceString chars) := by
  rcases s.serviceString_cases chars with ⟨_, h⟩ | ⟨ws, _, h⟩ <;> rw [h]
  · exact .of_same rfl rfl
  · exact s.outBytes_flush_outputExtends (ws.flatMap chars)

theorem State.serviceHalt_outputExtends (s : State) : OutputExtends s s.serviceHalt :=
  (s.outBytes_flush_outputExtends Config.haltNotice).trans (.of_same rfl rfl)

theorem State.trapDispatch_outputExtends (s : State) (vector : BitVec 8) : OutputExtends s (s.trapDispatch vector) := by
  rcases s.trapDispatch_cases vector with
    ⟨_, h⟩ | ⟨_, h⟩ | ⟨_, h⟩ | ⟨_, h⟩ | ⟨_, h⟩ | ⟨_, h⟩ | ⟨_, h⟩ <;> rw [h]
  · exact s.serviceGetc_outputExtends
  · exact s.outBytes_flush_outputExtends [lowByte (s.reg .r0)]
  · exact s.serviceString_outputExtends charOfWord
  · exact s.serviceIn_outputExtends
  · exact s.serviceString_outputExtends charsOfWord
  · exact s.serviceHalt_outputExtends
  · exact .of_same rfl rfl

/-- Only a trap service reaches the output ports. -/
theorem ExecEffect.outputExtends {i : Instr} {s t : State} (h : ExecEffect i s t) : OutputExtends s t := by
  cases h with
  | result | jump | call | store | idle => exact .of_same rfl rfl
  | service vector => exact s.trapDispatch_outputExtends vector

/-- Settles O58: the handler extends the output, and the beginning and end of a cycle do not touch it. -/
theorem outputOnlyGrows : Obligations.OutputOnlyGrows := by
  intro s t h
  rcases step_effect h with ⟨_, rfl⟩ | ⟨u, _, heffect, rfl⟩
  · exact OutputExtends.of_same rfl rfl
  · have hbegin : OutputExtends s s.beginCycle := .of_same rfl rfl
    have hend : OutputExtends u (u.endCycle s.pc) := by
      rw [State.endCycle_eq_withPc]
      exact .of_same rfl rfl
    exact (hbegin.trans heffect.outputExtends).trans hend

end Sys2Proof.Machine
end

section
/-! The input port: only GETC and IN depend on it, take from it, or wait for it (rules R32, R149). -/

namespace Sys2Proof.Machine

theorem State.serviceString_withInput (s : State) (chars : Word → List Byte) (bytes : List Byte) :
    (s.withInput bytes).serviceString chars = (s.serviceString chars).withInput bytes := by
  simp only [State.serviceString, State.withInput_mem, State.withInput_reg]
  split <;> rfl

/-- A trap other than GETC and IN does the same whatever the input is. -/
theorem State.trapDispatch_withInput (s : State) {vector : BitVec 8} (bytes : List Byte)
    (hgetc : vector ≠ 0x20) (hin : vector ≠ 0x23) :
    (s.withInput bytes).trapDispatch vector = (s.trapDispatch vector).withInput bytes := by
  simp only [State.trapDispatch, if_neg hgetc, if_neg hin]
  split_ifs
  · rfl
  · exact s.serviceString_withInput charOfWord bytes
  · exact s.serviceString_withInput charsOfWord bytes
  · rfl
  · rfl

/-- No instruction outside opcode 15 reads the input port. -/
theorem exec_withInput_of_not_trap {i : Instr} {s t : State} (bytes : List Byte) (hi : trapVector i = none)
    (h : exec i s = .next t) : exec i (s.withInput bytes) = .next (t.withInput bytes) := by
  cases i with
  | trap | getc | out | puts | in_ | putsp | halt => cases hi
  | br cond offset9 =>
    obtain rfl := Host.Outcome.next.inj h
    have htaken : (s.withInput bytes).branchTaken cond = s.branchTaken cond := rfl
    simp only [exec, execBr, htaken]
    split <;> rfl
  | addR | addI | andR | andI | not | jmp | jsr | jsrr | ld | ldi | ldr | lea | st | sti | str | rti | reserved | ret =>
    obtain rfl := Host.Outcome.next.inj h
    rfl

/-- Settles O60: outside opcode 15 no handler reads the input, and of the trap services only GETC and IN do. -/
theorem onlyGetcAndInDependOnInput : Obligations.OnlyGetcAndInDependOnInput := by
  intro i s t bytes hgetc hin h
  cases hi : trapVector i with
  | none => exact exec_withInput_of_not_trap bytes hi h
  | some vector =>
    obtain rfl := Host.Outcome.next.inj ((exec_of_trapVector hi s).symm.trans h)
    have hgetc' : vector ≠ 0x20 := fun hv => hgetc (hv ▸ hi)
    have hin' : vector ≠ 0x23 := fun hv => hin (hv ▸ hi)
    rw [exec_of_trapVector hi, State.trapDispatch_withInput s bytes hgetc' hin']

/-- An instruction that does not depend on the input leaves it: run it on its own input again. -/
theorem exec_input_of_not_read {i : Instr} {s t : State} (hgetc : trapVector i ≠ some 0x20)
    (hin : trapVector i ≠ some 0x23) (h : exec i s = .next t) : t.input = s.input := by
  have hsame : exec i s = .next (t.withInput s.input) := onlyGetcAndInDependOnInput i s t s.input hgetc hin h
  have ht : t = t.withInput s.input := Host.Outcome.next.inj (h.symm.trans hsame)
  exact (congrArg State.input ht :)

theorem State.serviceGetc_input (s : State) :
    s.serviceGetc.input = s.input ∨ ∃ b : Byte, s.input = b :: s.serviceGetc.input := by
  rcases s.serviceGetc_cases with ⟨_, h⟩ | ⟨b, rest, hinput, h⟩ <;> rw [h]
  · exact .inl rfl
  · exact .inr ⟨b, hinput⟩

theorem State.serviceIn_input (s : State) :
    s.serviceIn.input = s.input ∨ ∃ b : Byte, s.input = b :: s.serviceIn.input := by
  rcases s.serviceIn_cases with ⟨_, h⟩ | ⟨b, rest, hinput, h⟩ <;> rw [h]
  · exact .inl rfl
  · exact .inr ⟨b, hinput⟩

/-- GETC and IN take the first input byte, or none. -/
theorem exec_input_of_read {i : Instr} {s t : State} (hread : trapVector i = some 0x20 ∨ trapVector i = some 0x23)
    (h : exec i s = .next t) : t.input = s.input ∨ ∃ b : Byte, s.input = b :: t.input := by
  rcases hread with hi | hi <;> obtain rfl := Host.Outcome.next.inj ((exec_of_trapVector hi s).symm.trans h)
  · exact s.serviceGetc_input
  · exact s.serviceIn_input

/-- The decoder gives every vector of a service its own instruction (log entry 9). -/
theorem decodeVector_wellFormed (vector : BitVec 8) : (decodeVector vector).wellFormed = true := by
  unfold decodeVector
  repeat' split
  case isFalse => simp_all [Instr.wellFormed, isServiceVector]
  all_goals rfl

/-- The decoder gives JMP R7 its own instruction (log entry 9). -/
theorem decodeJump_wellFormed (baseR : Reg) : (decodeJump baseR).wellFormed = true := by
  unfold decodeJump
  split
  · rfl
  · simpa [Instr.wellFormed]

/-- The decoder answers well-formed instructions only. -/
theorem decode_wellFormed (ir : Word) : (decode ir).wellFormed = true := by
  unfold decode
  cases opcodeOf ir with
  | jmp => exact decodeJump_wellFormed (regField ir 6)
  | trap => exact decodeVector_wellFormed (vectorField ir)
  | add | and | jsr => dsimp only; split <;> rfl
  | _ => rfl

/-- The only decoded instruction of vector 0x20 is GETC, and that of 0x23 is IN. -/
theorem decode_eq_of_reads {ir : Word} (h : trapVector (decode ir) = some 0x20 ∨ trapVector (decode ir) = some 0x23) :
    decode ir = .getc ∨ decode ir = .in_ := by
  have hwf := decode_wellFormed ir
  cases hi : decode ir with
  | getc => exact .inl rfl
  | in_ => exact .inr rfl
  | trap vector =>
    rw [hi] at h hwf
    rcases h with h | h <;> cases h <;> exact absurd hwf (by decide)
  | _ => rw [hi] at h; rcases h with h | h <;> exact absurd h (by simp [trapVector])

/-- Settles O59: the handler of GETC or IN takes the first byte or none, every other handler none, and the beginning and
end of a cycle do not touch the input. -/
theorem inputTakenInOrder : Obligations.InputTakenInOrder := by
  intro s t h
  rcases step_next_cases s t h with ⟨_, rfl⟩ | ⟨u, _, hexec, rfl⟩
  · exact .inl rfl
  · have hend : (u.endCycle s.pc).input = u.input := by rw [State.endCycle_eq_withPc]; rfl
    rw [hend]
    by_cases hread : trapVector (decode s.fetch) = some 0x20 ∨ trapVector (decode s.fetch) = some 0x23
    · exact (exec_input_of_read hread hexec).imp_right fun htaken => ⟨decode_eq_of_reads hread, htaken⟩
    · obtain ⟨hgetc, hin⟩ := not_or.1 hread
      have hsame : u.input = s.beginCycle.input := exec_input_of_not_read hgetc hin hexec
      exact .inl hsame

/-- With no byte waiting GETC changes the phase only. -/
theorem State.serviceGetc_of_no_input (s : State) (h : s.input = []) : s.serviceGetc = s.withPhase .inputWait := by
  rcases s.serviceGetc_cases with ⟨_, hs⟩ | ⟨b, rest, hinput, _⟩
  · exact hs
  · simp [h] at hinput

/-- With no byte waiting IN leaves its prompt in the buffer, and changes the phase. -/
theorem State.serviceIn_of_no_input (s : State) (h : s.input = []) :
    s.serviceIn = (s.withObuf s.promptOnce.obuf).withPhase .inputWait := by
  rcases s.serviceIn_cases with ⟨_, hs⟩ | ⟨b, rest, hinput, _⟩
  · exact hs
  · simp [h] at hinput

/-- At a cycle boundary IN writes its prompt. -/
theorem State.promptOnce_of_boundary (s : State) (h : s.phase = .boundary) :
    s.promptOnce = s.withObuf (s.obuf ++ Config.inPrompt) := by
  rcases s.promptOnce_cases with ⟨hwait, _⟩ | ⟨_, hs⟩
  · simp [h] at hwait
  · exact hs

/-- Settles O47: the service waits, and the end of its cycle puts PC back. -/
theorem readWithoutInputWaits : Obligations.ReadWithoutInputWaits := by
  intro s hrun hphase hinput
  have hcycle : s.issuesCycle = true := s.issuesCycle_iff.2 ⟨hrun, by simp [hphase]⟩
  refine ⟨fun hgetc => ?_, fun hin => ?_⟩
  · have hexec : exec (decode s.fetch) s.beginCycle = .next (s.beginCycle.withPhase .inputWait) := by
      rw [hgetc, ← State.serviceGetc_of_no_input s.beginCycle hinput]
      rfl
    exact step_of_exec hcycle hexec
  · have hprompt : s.beginCycle.promptOnce.obuf = s.obuf ++ Config.inPrompt := by
      rw [State.promptOnce_of_boundary s.beginCycle hphase]
      rfl
    have hexec : exec (decode s.fetch) s.beginCycle =
        .next ((s.beginCycle.withObuf (s.obuf ++ Config.inPrompt)).withPhase .inputWait) := by
      rw [hin, ← hprompt, ← State.serviceIn_of_no_input s.beginCycle hinput]
      rfl
    exact step_of_exec hcycle hexec

end Sys2Proof.Machine
end

section
/-! Memory: what a write sets and leaves alone, that the next fetch sees it, and that only a store writes (rules R42, R44,
R48, R55). -/

namespace Sys2Proof.Machine

/-- Any word of memory after `MemWrite` (rules R41, R42). -/
theorem State.memWrite_memRead (s : State) (a b v : Word) (h : Memory.wf s.mem = true) :
    (s.memWrite a v).memRead b = if b = a then v else s.memRead b := by
  simp only [State.memRead, State.memWrite, State.withMem_mem, Memory.readAt_writeAt s.mem a.toNat b.toNat v h,
    BitVec.toNat_inj]

/-- Settles O4: memory by `State.memWrite_memRead`; `MemWrite` touches no other field. -/
theorem memWriteSetsOneWord : Obligations.MemWriteSetsOneWord := by
  intro s a v hwf
  refine ⟨?written, fun b hb => ?others, fun q => s.memWrite_reg a v q, rfl, rfl, ⟨rfl, rfl, rfl, rfl, rfl⟩⟩
  case written => rw [s.memWrite_memRead a a v hwf, if_pos rfl]
  case others => rw [s.memWrite_memRead a b v hwf, if_neg hb]

@[simp] theorem sext_zero (n : Nat) : sext 0#n = 0#16 :=
  BitVec.eq_of_getLsbD_eq fun i _ => by simp [getLsbD_sext]

/-- A PC-relative address with offset 0 is PC itself. -/
theorem State.pcRelative_zero (s : State) (n : Nat) : s.pcRelative 0#n = s.pc := by
  rw [State.pcRelative, sext_zero, BitVec.add_zero]

/-- A step whose handler leaves the cycle complete answers the handler's state. -/
theorem step_of_exec_boundary {s u : State} (hcycle : s.issuesCycle = true)
    (h : exec (decode s.fetch) s.beginCycle = .next u) (hdone : u.phase = .boundary) : step s = .next u := by
  rw [step_of_exec hcycle h, State.endCycle_eq, if_pos hdone]

/-- Settles O39: with offset 0 the store goes to the incremented PC, where the next cycle fetches. -/
theorem storedWordIsFetchedNext : Obligations.StoredWordIsFetchedNext := by
  intro s sr hwf hrun hphase hdecode
  have hcycle : s.issuesCycle = true := s.issuesCycle_iff.2 ⟨hrun, by simp [hphase]⟩
  have hexec : exec (decode s.fetch) s.beginCycle = .next (s.beginCycle.memWrite (s.pc + 1) (s.reg sr)) := by
    have haddr : s.beginCycle.pcRelative 0#9 = s.pc + 1 := s.beginCycle.pcRelative_zero 9
    rw [hdecode, ← haddr]
    rfl
  refine ⟨_, step_of_exec_boundary hcycle hexec hphase, rfl, ?_⟩
  have hread := s.beginCycle.memWrite_memRead (s.pc + 1) (s.pc + 1) (s.reg sr) hwf
  exact hread.trans (if_pos rfl)

/-- A handler that is no store leaves memory as it got it. -/
theorem ExecEffect.mem_eq {i : Instr} {s t : State} (h : ExecEffect i s t) (hstore : isStore i = false) :
    t.mem = s.mem := by
  cases h with
  | result | jump | call | idle => rfl
  | store _ _ _ hi => simp [hstore] at hi
  | service vector => exact (s.trapDispatch_keeps vector).mem

/-- A step that fetches no store leaves memory as it was: the beginning and end of a cycle touch PC only. -/
theorem step_mem_eq {s t : State} (h : step s = .next t) (hstore : isStore (decode s.fetch) = false) :
    t.mem = s.mem := by
  rcases step_effect h with ⟨_, rfl⟩ | ⟨u, _, heffect, rfl⟩
  · rfl
  · have hmem : u.mem = s.mem := heffect.mem_eq hstore
    rw [State.endCycle_eq_withPc, State.withPc_mem, hmem]

/-- Every step answers a next state. -/
theorem exists_step_next (s : State) : ∃ t : State, step s = .next t := by
  by_cases hcycle : s.issuesCycle = true
  · obtain ⟨u, hexec, _⟩ := exec_effect (decode s.fetch) s.beginCycle
    exact ⟨_, step_of_exec hcycle hexec⟩
  · exact ⟨s, if_neg hcycle⟩

/-- The induction behind O57: the states of a run after its first step are those of a shorter run. -/
theorem run_mem_eq (k : Nat) (s t : State) (h : Host.Core.run core k s = .next t)
    (hstore : ∀ (j : Nat) (u : State), j < k → Host.Core.run core j s = .next u → isStore (decode u.fetch) = false) :
    t.mem = s.mem := by
  induction k generalizing s with
  | zero =>
    cases h
    rfl
  | succ k ih =>
    obtain ⟨s', hstep⟩ := exists_step_next s
    have hfirst : isStore (decode s.fetch) = false := hstore 0 s k.succ_pos rfl
    have hrest : t.mem = s'.mem := by
      refine ih s' ((core_run_succ k s s' hstep).symm.trans h) fun j u hj hu => ?_
      exact hstore (j + 1) u (Nat.succ_lt_succ hj) ((core_run_succ j s s' hstep).trans hu)
    exact hrest.trans (step_mem_eq hstep hfirst)

/-- Settles O57: a run without stores keeps the whole memory, so every word of it. -/
theorem runWithoutStoresKeepsMemory : Obligations.RunWithoutStoresKeepsMemory := by
  intro k s t h hstore b
  rw [State.memRead, State.memRead, run_mem_eq k s t h hstore]

end Sys2Proof.Machine
end

section
/-! ADD, AND and NOT: the words of their handlers, the result each writes, and what writing a result leaves unchanged
(rules R100-R105). -/

namespace Sys2Proof.Machine

/-! ### The words of the three handlers (rule R63) -/

/-- The ADD handler's two forms, by the mode bit. -/
theorem decode_of_opcode_add {ir : Word} (h : opcodeOf ir = .add) :
    decode ir = if ir.getLsbD 5 then .addI (regField ir 9) (regField ir 6) (imm5Field ir)
      else .addR (regField ir 9) (regField ir 6) (regField ir 0) := by
  rw [decode, h]

/-- The AND handler's two forms, by the mode bit. -/
theorem decode_of_opcode_and {ir : Word} (h : opcodeOf ir = .and) :
    decode ir = if ir.getLsbD 5 then .andI (regField ir 9) (regField ir 6) (imm5Field ir)
      else .andR (regField ir 9) (regField ir 6) (regField ir 0) := by
  rw [decode, h]

/-- The NOT handler has one form, and reads no bit below its source field. -/
theorem decode_of_opcode_not {ir : Word} (h : opcodeOf ir = .not) :
    decode ir = .not (regField ir 9) (regField ir 6) := by
  rw [decode, h]

/-! ### The result each handler writes -/

theorem exec_addR (dr sr1 sr2 : Reg) (s : State) :
    exec (.addR dr sr1 sr2) s = .next (s.writeResult dr (s.reg sr1 + s.reg sr2)) := rfl

theorem exec_addI (dr sr1 : Reg) (imm5 : BitVec 5) (s : State) :
    exec (.addI dr sr1 imm5) s = .next (s.writeResult dr (s.reg sr1 + sext imm5)) := rfl

theorem exec_andR (dr sr1 sr2 : Reg) (s : State) :
    exec (.andR dr sr1 sr2) s = .next (s.writeResult dr (s.reg sr1 &&& s.reg sr2)) := rfl

theorem exec_andI (dr sr1 : Reg) (imm5 : BitVec 5) (s : State) :
    exec (.andI dr sr1 imm5) s = .next (s.writeResult dr (s.reg sr1 &&& sext imm5)) := rfl

theorem exec_not (dr sr : Reg) (s : State) :
    exec (.not dr sr) s = .next (s.writeResult dr (~~~(s.reg sr))) := rfl

/-! ### What writing a result sets and leaves alone (rules R22, R25) -/

theorem State.writeResult_regsSameBut (s : State) (dr : Reg) (v : Word) : RegsSameBut dr s (s.writeResult dr v) :=
  fun q hq => s.writeResult_reg_other dr q v hq

theorem RegsSameBut.trans {r : Reg} {s t u : State} (h : RegsSameBut r s t) (h' : RegsSameBut r t u) :
    RegsSameBut r s u :=
  fun q hq => (h' q hq).trans (h q hq)

/-- An instruction that writes the result `v` to DR puts `v` there, sets COND from the new DR and changes nothing else:
the effect that the rules of the seven instructions of rule R26 share. -/
theorem exec_result {i : Instr} {s : State} {dr : Reg} {v : Word} (h : exec i s = .next (s.writeResult dr v)) :
    ∃ t : State, exec i s = .next t ∧ t.reg dr = v ∧ t.cond = flagOf (t.reg dr) ∧
      RegsSameBut dr s t ∧ t.pc = s.pc ∧ MemSame s t ∧ ConsoleSame s t := by
  refine ⟨_, h, s.writeResult_reg_same dr v, ?flag, s.writeResult_regsSameBut dr v, s.writeResult_pc dr v,
    s.writeResult_memRead dr v, ⟨rfl, rfl, rfl, rfl, rfl⟩⟩
  case flag => rw [State.writeResult_cond, State.writeResult_reg_same]

/-! ### The three instructions -/

/-- Settles O20: the form of mode bit 0, and the result `exec_addR`. -/
theorem addRegisterAddsAndSetsFlags : Obligations.AddRegisterAddsAndSetsFlags := by
  refine ⟨fun ir hop hmode => ?_, fun dr sr1 sr2 s => exec_result (exec_addR dr sr1 sr2 s)⟩
  rw [decode_of_opcode_add hop, hmode, if_neg Bool.false_ne_true]

/-- Settles O21: the form of mode bit 1, and the result `exec_addI`. -/
theorem addImmediateAddsAndSetsFlags : Obligations.AddImmediateAddsAndSetsFlags := by
  refine ⟨fun ir hop hmode => ?_, fun dr sr1 imm5 s => exec_result (exec_addI dr sr1 imm5 s)⟩
  rw [decode_of_opcode_add hop, if_pos hmode]

/-- Settles O22: the form of mode bit 0, and the result `exec_andR`. -/
theorem andRegisterAndsAndSetsFlags : Obligations.AndRegisterAndsAndSetsFlags := by
  refine ⟨fun ir hop hmode => ?_, fun dr sr1 sr2 s => exec_result (exec_andR dr sr1 sr2 s)⟩
  rw [decode_of_opcode_and hop, hmode, if_neg Bool.false_ne_true]

/-- Settles O23: the form of mode bit 1, and the result `exec_andI`. -/
theorem andImmediateAndsAndSetsFlags : Obligations.AndImmediateAndsAndSetsFlags := by
  refine ⟨fun ir hop hmode => ?_, fun dr sr1 imm5 s => exec_result (exec_andI dr sr1 imm5 s)⟩
  rw [decode_of_opcode_and hop, if_pos hmode]

/-- Settles O24: the one form of the NOT handler, and the result `exec_not`. -/
theorem notComplementsAndSetsFlags : Obligations.NotComplementsAndSetsFlags :=
  ⟨fun _ hop => decode_of_opcode_not hop, fun dr sr s => exec_result (exec_not dr sr s)⟩

/-- Two's complement negation with the immediate 1 as ADD extends it (rule R105). -/
theorem not_add_sext_one (v : Word) : ~~~v + sext (1 : BitVec 5) = 0 - v := by
  have hone : sext (1 : BitVec 5) = 1#16 := by decide
  rw [hone, ← BitVec.neg_eq_not_add, zero_sub]

/-- Settles O25: ADD reads the complement NOT has written to DR, and both write DR only. -/
theorem notThenAddOneNegates : Obligations.NotThenAddOneNegates := by
  intro dr sr s
  obtain ⟨t, hnot, hcompl, _, hregs, _⟩ := exec_result (exec_not dr sr s)
  obtain ⟨u, hadd, hsum, hflag, hregs', _⟩ := exec_result (exec_addI dr dr 1 t)
  have hneg : u.reg dr = 0 - s.reg sr := by rw [hsum, hcompl, not_add_sext_one]
  exact ⟨t, u, hnot, hadd, hneg, hregs.trans hregs', hneg ▸ hflag⟩

end Sys2Proof.Machine
end

section
/-! BR, JMP, RET, JSR and JSRR: the words of their handlers, the PC each sets, and what a jump and a call leave unchanged
(rules R110-R114). -/

namespace Sys2Proof.Machine

/-! ### The words of the three handlers (rule R63) -/

/-- The BR handler has one form. -/
theorem decode_of_opcode_br {ir : Word} (h : opcodeOf ir = .br) :
    decode ir = .br (condField ir) (offset9Field ir) := by
  rw [decode, h]

/-- The JSR handler's two forms, by the mode bit. -/
theorem decode_of_opcode_jsr {ir : Word} (h : opcodeOf ir = .jsr) :
    decode ir = if ir.getLsbD 11 then .jsr (offset11Field ir) else .jsrr (regField ir 6) := by
  rw [decode, h]

/-- The JMP handler has one form, which carries a second name for R7. -/
theorem decode_of_opcode_jmp {ir : Word} (h : opcodeOf ir = .jmp) : decode ir = decodeJump (regField ir 6) := by
  rw [decode, h]

/-- RET is JMP through R7: the name the decoder chooses has no effect (rule R72). -/
theorem exec_decodeJump (baseR : Reg) (s : State) : exec (decodeJump baseR) s = exec (.jmp baseR) s := by
  unfold decodeJump
  split
  case isTrue hlink => rw [hlink]; rfl
  case isFalse => rfl

/-! ### What each handler makes of the state -/

/-- BR as a write of PC in both cases: the branch that is not taken writes PC back. -/
theorem exec_br (cond : BitVec 3) (offset9 : BitVec 9) (s : State) :
    exec (.br cond offset9) s =
      .next (s.withPc (if (zext cond &&& s.cond) ≠ 0 then s.pc + sext offset9 else s.pc)) := by
  have htaken : s.branchTaken cond = true ↔ (zext cond &&& s.cond) ≠ 0 := bne_iff_ne
  refine congrArg Host.Outcome.next ((if_congr htaken rfl rfl).trans ?_)
  split <;> rfl

theorem exec_jmp (baseR : Reg) (s : State) : exec (.jmp baseR) s = .next (s.withPc (s.reg baseR)) := rfl

theorem exec_ret (s : State) : exec .ret s = .next (s.withPc (s.reg .r7)) := rfl

theorem exec_jsr (offset11 : BitVec 11) (s : State) :
    exec (.jsr offset11) s = .next ((s.withReg .r7 s.pc).withPc (s.pc + sext offset11)) := rfl

/-- The base is read in the state before the link is written. -/
theorem exec_jsrr (baseR : Reg) (s : State) :
    exec (.jsrr baseR) s = .next ((s.withReg .r7 s.pc).withPc (s.reg baseR)) := rfl

/-! ### What a jump and a call set and leave alone (rules R22, R23) -/

/-- An instruction that writes only PC: the effect that BR, JMP and RET share. -/
theorem exec_jump {i : Instr} {s : State} {target : Word} (h : exec i s = .next (s.withPc target)) :
    ∃ t : State, exec i s = .next t ∧ t.pc = target ∧ RegsSame s t ∧ t.cond = s.cond ∧ MemSame s t ∧ ConsoleSame s t :=
  ⟨_, h, s.withPc_pc target, s.withPc_reg target, s.withPc_cond target, s.withPc_memRead target,
    ⟨rfl, rfl, rfl, rfl, rfl⟩⟩

/-- An instruction that puts the return address into R7 and then writes PC: the effect that JSR and JSRR share. -/
theorem exec_call {i : Instr} {s : State} {target : Word}
    (h : exec i s = .next ((s.withReg .r7 s.pc).withPc target)) :
    ∃ t : State, exec i s = .next t ∧ t.reg .r7 = s.pc ∧ t.pc = target ∧
      RegsSameBut .r7 s t ∧ t.cond = s.cond ∧ MemSame s t ∧ ConsoleSame s t :=
  ⟨_, h, s.withReg_reg_same .r7 s.pc, rfl, fun q hq => s.withReg_reg_other .r7 q s.pc hq, rfl,
    s.withReg_memRead .r7 s.pc, ⟨rfl, rfl, rfl, rfl, rfl⟩⟩

/-! ### The test of BR -/

/-- A flag value is one bit, and masking with it tests that bit of the condition field. -/
theorem zext_and_twoPow_ne_zero (cond : BitVec 3) (i : Nat) (hi : i < 16) :
    (zext cond &&& BitVec.twoPow 16 i) ≠ 0 ↔ cond.getLsbD i = true := by
  have hbit : (zext cond).getLsbD i = cond.getLsbD i := by
    rw [getLsbD_zext, decide_eq_true hi, Bool.true_and]
  have hpow : BitVec.twoPow 16 i ≠ 0 := by
    rw [← BitVec.toNat_ne_iff_ne, BitVec.toNat_twoPow_of_lt hi]
    exact (Nat.two_pow_pos i).ne'
  rw [BitVec.and_twoPow, hbit]
  exact hpow.ite_ne_right_iff

/-- With a legal COND the mask of rule R110 names the flag by its bit: n for NEG, z for ZRO, p for POS. Before any flag
is set no bit of the condition field meets one of COND (rule R28). -/
theorem zext_and_cond_ne_zero_iff (cond : BitVec 3) {s : State} (hlegal : CondLegal s) :
    (zext cond &&& s.cond) ≠ 0 ↔
      (cond.getLsbD 2 = true ∧ s.cond = condNeg) ∨ (cond.getLsbD 1 = true ∧ s.cond = condZro) ∨
        (cond.getLsbD 0 = true ∧ s.cond = condPos) := by
  have hneg : (zext cond &&& condNeg) ≠ 0 ↔ cond.getLsbD 2 = true := zext_and_twoPow_ne_zero cond 2 (by decide)
  have hzro : (zext cond &&& condZro) ≠ 0 ↔ cond.getLsbD 1 = true := zext_and_twoPow_ne_zero cond 1 (by decide)
  have hpos : (zext cond &&& condPos) ≠ 0 ↔ cond.getLsbD 0 = true := zext_and_twoPow_ne_zero cond 0 (by decide)
  rcases hlegal with hunset | hflag | hflag | hflag
  · simp [hunset, condNeg, condZro, condPos]
  · rw [hflag, hpos]; simp [condNeg, condZro, condPos]
  · rw [hflag, hzro]; simp [condNeg, condZro, condPos]
  · rw [hflag, hneg]; simp [condNeg, condZro, condPos]

/-! ### The instructions -/

/-- Settles O26: the one form of the BR handler, and `exec_br` in each of its two cases. -/
theorem branchAddsOffsetWhenMasked : Obligations.BranchAddsOffsetWhenMasked := by
  refine ⟨fun _ hop => decode_of_opcode_br hop, fun cond offset9 s => ?_⟩
  obtain ⟨t, hexec, hpc, hframe⟩ := exec_jump (exec_br cond offset9 s)
  refine ⟨t, hexec, fun hmask => ?taken, fun hmask => ?notTaken, hframe⟩
  case taken => rw [hpc, if_pos hmask]
  case notTaken => rw [hpc, if_neg (not_not_intro hmask)]

/-- Settles O27: `exec_br`, with its test read as the named flags by `zext_and_cond_ne_zero_iff`. -/
theorem branchTestsNamedFlag : Obligations.BranchTestsNamedFlag := by
  intro cond offset9 s hlegal
  obtain ⟨t, hexec, hpc, _⟩ := exec_jump (exec_br cond offset9 s)
  exact ⟨t, hexec, hpc.trans (if_congr (zext_and_cond_ne_zero_iff cond hlegal) rfl rfl)⟩

/-- Settles O29: the two names of a jump do the same, and each writes PC only. -/
theorem jumpGoesToBaseRegister : Obligations.JumpGoesToBaseRegister := by
  refine ⟨fun ir s hop => ?_, fun s => exec_jump (exec_ret s), fun baseR s => exec_jump (exec_jmp baseR s)⟩
  rw [decode_of_opcode_jmp hop, exec_decodeJump]

/-- Settles O30: the form of mode bit 1, and the call `exec_jsr`. -/
theorem jsrSavesReturnAddress : Obligations.JsrSavesReturnAddress := by
  refine ⟨fun ir hop hmode => ?_, fun offset11 s => exec_call (exec_jsr offset11 s)⟩
  rw [decode_of_opcode_jsr hop, if_pos hmode]

/-- Settles O31: the form of mode bit 0, and the call `exec_jsrr`, whose target is the base in the old state. -/
theorem jsrrReadsBaseBeforeLink : Obligations.JsrrReadsBaseBeforeLink := by
  refine ⟨fun ir hop hmode => ?_, fun baseR s => exec_call (exec_jsrr baseR s)⟩
  rw [decode_of_opcode_jsr hop, hmode, if_neg Bool.false_ne_true]

end Sys2Proof.Machine
end

section
/-! LD, LDI, LDR and LEA: the words of their handlers and the result each writes; what writing it sets and leaves alone
is `exec_result` (rules R120-R124). -/

namespace Sys2Proof.Machine

/-! ### The words of the four handlers (rule R63) -/

theorem decode_of_opcode_ld {ir : Word} (h : opcodeOf ir = .ld) :
    decode ir = .ld (regField ir 9) (offset9Field ir) := by
  rw [decode, h]

theorem decode_of_opcode_ldi {ir : Word} (h : opcodeOf ir = .ldi) :
    decode ir = .ldi (regField ir 9) (offset9Field ir) := by
  rw [decode, h]

/-- The base field is bits 8..6 and the offset keeps all six bits below it (conflict C2). -/
theorem decode_of_opcode_ldr {ir : Word} (h : opcodeOf ir = .ldr) :
    decode ir = .ldr (regField ir 9) (regField ir 6) (offset6Field ir) := by
  rw [decode, h]

theorem decode_of_opcode_lea {ir : Word} (h : opcodeOf ir = .lea) :
    decode ir = .lea (regField ir 9) (offset9Field ir) := by
  rw [decode, h]

/-! ### The result each handler writes -/

theorem exec_ld (dr : Reg) (offset9 : BitVec 9) (s : State) :
    exec (.ld dr offset9) s = .next (s.writeResult dr (s.memRead (s.pc + sext offset9))) := rfl

/-- Two reads of the same memory: the pointer, then the data. -/
theorem exec_ldi (dr : Reg) (offset9 : BitVec 9) (s : State) :
    exec (.ldi dr offset9) s = .next (s.writeResult dr (s.memRead (s.memRead (s.pc + sext offset9)))) := rfl

/-- The base is read in the state before DR is written, also when it is DR. -/
theorem exec_ldr (dr baseR : Reg) (offset6 : BitVec 6) (s : State) :
    exec (.ldr dr baseR offset6) s = .next (s.writeResult dr (s.memRead (s.reg baseR + sext offset6))) := rfl

/-- The address itself is the result: memory is not read. -/
theorem exec_lea (dr : Reg) (offset9 : BitVec 9) (s : State) :
    exec (.lea dr offset9) s = .next (s.writeResult dr (s.pc + sext offset9)) := rfl

/-! ### The instructions -/

/-- Settles O32: the one form of the LD handler, and the result `exec_ld`. -/
theorem ldLoadsPcRelative : Obligations.LdLoadsPcRelative :=
  ⟨fun _ hop => decode_of_opcode_ld hop, fun dr offset9 s => exec_result (exec_ld dr offset9 s)⟩

/-- Settles O33: the one form of the LDI handler, and the result `exec_ldi`; the flag is that of DR, the only register
written. -/
theorem ldiLoadsThroughPointer : Obligations.LdiLoadsThroughPointer :=
  ⟨fun _ hop => decode_of_opcode_ldi hop, fun dr offset9 s => exec_result (exec_ldi dr offset9 s)⟩

/-- Settles O34: the one form of the LDR handler, and the result `exec_ldr`, whose address uses the base in the old
state. -/
theorem ldrLoadsBaseRelative : Obligations.LdrLoadsBaseRelative :=
  ⟨fun _ hop => decode_of_opcode_ldr hop, fun dr baseR offset6 s => exec_result (exec_ldr dr baseR offset6 s)⟩

/-- Settles O35: the one form of the LEA handler, and the result `exec_lea`. -/
theorem leaLoadsAddress : Obligations.LeaLoadsAddress :=
  ⟨fun _ hop => decode_of_opcode_lea hop, fun dr offset9 s => exec_result (exec_lea dr offset9 s)⟩

end Sys2Proof.Machine
end

section
/-! ST, STI and STR: the words of their handlers and the one word each stores; what the store sets and leaves alone is
`memWriteSetsOneWord` (rules R130-R132). -/

namespace Sys2Proof.Machine

/-! ### The words of the three handlers (rule R63) -/

theorem decode_of_opcode_st {ir : Word} (h : opcodeOf ir = .st) :
    decode ir = .st (regField ir 9) (offset9Field ir) := by
  rw [decode, h]

theorem decode_of_opcode_sti {ir : Word} (h : opcodeOf ir = .sti) :
    decode ir = .sti (regField ir 9) (offset9Field ir) := by
  rw [decode, h]

/-- The base field is bits 8..6 and the offset keeps all six bits below it (conflict C2). -/
theorem decode_of_opcode_str {ir : Word} (h : opcodeOf ir = .str) :
    decode ir = .str (regField ir 9) (regField ir 6) (offset6Field ir) := by
  rw [decode, h]

/-! ### The word each handler stores -/

theorem exec_st (sr : Reg) (offset9 : BitVec 9) (s : State) :
    exec (.st sr offset9) s = .next (s.memWrite (s.pc + sext offset9) (s.reg sr)) := rfl

/-- The address is the pointer word of the old state, also when the pointer points at itself. -/
theorem exec_sti (sr : Reg) (offset9 : BitVec 9) (s : State) :
    exec (.sti sr offset9) s = .next (s.memWrite (s.memRead (s.pc + sext offset9)) (s.reg sr)) := rfl

/-- No register is written, so that SR may be the base register. -/
theorem exec_str (sr baseR : Reg) (offset6 : BitVec 6) (s : State) :
    exec (.str sr baseR offset6) s = .next (s.memWrite (s.reg baseR + sext offset6) (s.reg sr)) := rfl

/-- An instruction that stores `v` at `a` makes that word read `v` and changes nothing else: the effect that ST, STI and
STR share (rules R42, R44). -/
theorem exec_store {i : Instr} {s : State} {a v : Word} (hwf : Memory.wf s.mem = true)
    (h : exec i s = .next (s.memWrite a v)) :
    ∃ t : State, exec i s = .next t ∧ t.memRead a = v ∧ MemSameBut a s t ∧
      RegsSame s t ∧ t.pc = s.pc ∧ t.cond = s.cond ∧ ConsoleSame s t :=
  ⟨_, h, memWriteSetsOneWord s a v hwf⟩

/-! ### The instructions -/

/-- Settles O36: the one form of the ST handler, and the store `exec_st`. -/
theorem stStoresPcRelative : Obligations.StStoresPcRelative :=
  ⟨fun _ hop => decode_of_opcode_st hop, fun sr offset9 s hwf => exec_store hwf (exec_st sr offset9 s)⟩

/-- Settles O37: the one form of the STI handler, and the store `exec_sti`, whose address is read before the store. -/
theorem stiStoresThroughPointer : Obligations.StiStoresThroughPointer :=
  ⟨fun _ hop => decode_of_opcode_sti hop, fun sr offset9 s hwf => exec_store hwf (exec_sti sr offset9 s)⟩

/-- Settles O38: the one form of the STR handler, and the store `exec_str`. -/
theorem strStoresBaseRelative : Obligations.StrStoresBaseRelative :=
  ⟨fun _ hop => decode_of_opcode_str hop, fun sr baseR offset6 s hwf => exec_store hwf (exec_str sr baseR offset6 s)⟩

end Sys2Proof.Machine
end

section
/-! The scan of PUTS and PUTSP: the words before the first zero word, or none when there is no zero word (rules R143,
R145, decision D8). -/

namespace Sys2Proof.Machine

/-! ### Addresses counted on from another (rule R43) -/

@[simp] theorem wordsAfter_zero (a : Word) : wordsAfter a 0 = a := BitVec.add_zero a

theorem wordsAfter_add_one (a : Word) (j : Nat) : wordsAfter (a + 1) j = wordsAfter a (j + 1) := by
  rw [wordsAfter, wordsAfter, BitVec.ofNat_add, BitVec.add_assoc, BitVec.add_comm 1]
  rfl

/-! ### The two outcomes of a scan -/

/-- A zero word within the fuel ends the scan, and the words before it are its result. -/
theorem scanWords_eq_some {m : Memory} {fuel n : Nat} {a : Word} (hn : n < fuel)
    (hnonzero : ∀ j : Nat, j < n → Memory.readAt m (wordsAfter a j).toNat ≠ 0x0000)
    (hzero : Memory.readAt m (wordsAfter a n).toNat = 0x0000) :
    scanWords m fuel a = some ((List.range n).map fun j => Memory.readAt m (wordsAfter a j).toNat) := by
  induction fuel generalizing n a with
  | zero => exact absurd hn n.not_lt_zero
  | succ fuel ih =>
    rw [scanWords_succ]
    cases n with
    | zero => exact if_pos (wordsAfter_zero a ▸ hzero)
    | succ n =>
      have hfirst : Memory.readAt m a.toNat ≠ 0x0000 := wordsAfter_zero a ▸ hnonzero 0 n.succ_pos
      have hrest := ih (a := a + 1) (Nat.lt_of_succ_lt_succ hn)
        (fun j hj => wordsAfter_add_one a j ▸ hnonzero (j + 1) (Nat.succ_lt_succ hj))
        (wordsAfter_add_one a n ▸ hzero)
      rw [if_neg hfirst, hrest, List.range_succ_eq_map]
      simp only [List.map_cons, List.map_map, Function.comp_def, wordsAfter_zero, wordsAfter_add_one, Option.map_some]

/-- In a memory without a zero word no fuel is enough. -/
theorem scanWords_eq_none {m : Memory} (hnonzero : ∀ a : Word, Memory.readAt m a.toNat ≠ 0x0000) (fuel : Nat)
    (a : Word) : scanWords m fuel a = none := by
  induction fuel generalizing a with
  | zero => rfl
  | succ fuel ih => rw [scanWords_succ, if_neg (hnonzero a), ih, Option.map_none]

/-! ### The two outcomes of a string service -/

/-- With a zero word `n` words on, the string is those `n` words, and it is flushed. -/
theorem State.serviceString_of_zeroWord {s : State} (chars : Word → List Byte) {n : Nat} (hn : n < 65536)
    (hnonzero : ∀ j : Nat, j < n → s.memRead (wordsAfter (s.reg .r0) j) ≠ 0x0000)
    (hzero : s.memRead (wordsAfter (s.reg .r0) n) = 0x0000) :
    s.serviceString chars =
      (s.outBytes ((List.range n).flatMap fun j => chars (s.memRead (wordsAfter (s.reg .r0) j)))).flush := by
  have hscan : scanWords s.mem Config.memWords (s.reg .r0) = some _ := scanWords_eq_some hn hnonzero hzero
  rw [State.serviceString, hscan]
  exact congrArg (fun bytes => (s.outBytes bytes).flush) (List.flatMap_map ..)

/-- Without a zero word the string never ends, and only the phase shows it. -/
theorem State.serviceString_of_no_zeroWord {s : State} (chars : Word → List Byte)
    (hnonzero : ∀ a : Word, s.memRead a ≠ 0x0000) : s.serviceString chars = s.withPhase .endlessScan := by
  rw [State.serviceString, scanWords_eq_none hnonzero]

/-! ### What writing and flushing leaves unchanged (rules R31, R150) -/

/-- A handler that writes bytes and flushes delivers them after what was buffered and changes nothing else: the effect
that OUT, PUTS and PUTSP share. -/
theorem exec_write_flush {i : Instr} {s : State} {bytes : List Byte} (h : exec i s = .next (s.outBytes bytes).flush) :
    ∃ t : State, exec i s = .next t ∧ t.sink = s.sink ++ [s.obuf ++ bytes] ∧ t.obuf = [] ∧
      RegsSame s t ∧ t.cond = s.cond ∧ t.pc = s.pc ∧ MemSame s t ∧
      t.input = s.input ∧ t.run = s.run ∧ t.phase = s.phase :=
  ⟨_, h, rfl, rfl, fun _ => rfl, rfl, rfl, fun _ => rfl, rfl, rfl, rfl⟩

/-! ### PUTS and PUTSP -/

theorem exec_puts (s : State) : exec .puts s = .next (s.serviceString charOfWord) := rfl

theorem exec_putsp (s : State) : exec .putsp s = .next (s.serviceString charsOfWord) := rfl

theorem charOfWord_eq (w : Word) : charOfWord w = [lowByte w] := rfl

/-- The two bytes of a word as the low byte and what the high byte adds to it. -/
theorem charsOfWord_eq (w : Word) :
    charsOfWord w = lowByte w :: (if highByte w = 0 then [] else [highByte w]) := by
  unfold charsOfWord
  split <;> rfl

/-- Settles O43: the string is flushed, one byte for each of its words. -/
theorem putsWritesUntilZeroWord : Obligations.PutsWritesUntilZeroWord := by
  intro s n hn hnonzero hzero
  have hexec := exec_puts s
  rw [State.serviceString_of_zeroWord charOfWord hn hnonzero hzero] at hexec
  simp only [charOfWord_eq, ← List.map_eq_flatMap] at hexec
  exact exec_write_flush hexec

/-- Settles O44: the string is flushed, the bytes of each of its words by `charsOfWord_eq`. -/
theorem putspWritesTwoBytesPerWord : Obligations.PutspWritesTwoBytesPerWord := by
  intro s n hn hnonzero hzero
  have hexec := exec_putsp s
  rw [State.serviceString_of_zeroWord charsOfWord hn hnonzero hzero] at hexec
  simp only [charsOfWord_eq] at hexec
  exact exec_write_flush hexec

/-! ### The scan that never ends -/

/-- A machine in an endless scan stays as it is (rule R201). -/
theorem step_of_endlessScan {s : State} (h : s.phase = .endlessScan) : step s = .next s := by
  have hstuck : ¬ s.issuesCycle = true := fun hcycle => (s.issuesCycle_iff.1 hcycle).2 h
  exact if_neg hstuck

theorem run_of_endlessScan {s : State} (h : s.phase = .endlessScan) (k : Nat) : Host.Core.run core k s = .next s := by
  induction k with
  | zero => rfl
  | succ k ih => rw [core_run_succ k s s (step_of_endlessScan h), ih]

/-- The cycle of a PUTS or PUTSP without a zero word does not complete: its end puts PC back. -/
theorem step_of_no_zeroWord {s : State} (hrun : s.run = .running) (hphase : s.phase = .boundary)
    (hnonzero : ∀ a : Word, s.memRead a ≠ 0x0000) (hdecode : decode s.fetch = .puts ∨ decode s.fetch = .putsp) :
    step s = .next (s.withPhase .endlessScan) := by
  have hcycle : s.issuesCycle = true := s.issuesCycle_iff.2 ⟨hrun, by simp [hphase]⟩
  have hscan (chars : Word → List Byte) : s.beginCycle.serviceString chars = s.beginCycle.withPhase .endlessScan :=
    State.serviceString_of_no_zeroWord chars hnonzero
  have hexec : exec (decode s.fetch) s.beginCycle = .next (s.beginCycle.withPhase .endlessScan) := by
    rcases hdecode with hputs | hputsp
    · rw [hputs, exec_puts, hscan]
    · rw [hputsp, exec_putsp, hscan]
  exact step_of_exec hcycle hexec

/-- Settles O45: the first step enters the endless scan, and no later one leaves it. -/
theorem scanWithoutZeroNeverEnds : Obligations.ScanWithoutZeroNeverEnds := by
  intro s hrun hphase hnonzero hdecode k
  rw [core_run_succ k _ _ (step_of_no_zeroWord hrun hphase hnonzero hdecode), run_of_endlessScan rfl]

end Sys2Proof.Machine
end

section
/-! TRAP and the console services: the dispatch on the vector, what each service changes, reads and delivers (rules
R140-R150). -/

namespace Sys2Proof.Machine

/-! ### The dispatch (rules R140, R147) -/

/-- The TRAP handler reads the vector only. -/
theorem decode_of_opcode_trap {ir : Word} (h : opcodeOf ir = .trap) : decode ir = decodeVector (vectorField ir) := by
  rw [decode, h]

/-- The decoder keeps the vector, also where it gives a service its own name (rule R72). -/
theorem trapVector_decodeVector (vector : BitVec 8) : trapVector (decodeVector vector) = some vector := by
  unfold decodeVector
  split_ifs with hgetc hout hputs hin hputsp hhalt
  · rw [hgetc]; rfl
  · rw [hout]; rfl
  · rw [hputs]; rfl
  · rw [hin]; rfl
  · rw [hputsp]; rfl
  · rw [hhalt]; rfl
  · rfl

/-- The vector alone says what a trap does: both spellings of a service agree. -/
theorem exec_eq_of_trapVector {i i' : Instr} {vector : BitVec 8} (h : trapVector i = some vector)
    (h' : trapVector i' = some vector) (s : State) : exec i s = exec i' s :=
  (exec_of_trapVector h s).trans (exec_of_trapVector h' s).symm

/-- Outside 0x20 to 0x25 the dispatcher does nothing. -/
theorem State.trapDispatch_of_no_service (s : State) {vector : BitVec 8}
    (h : vector.toNat < 0x20 ∨ 0x25 < vector.toNat) : s.trapDispatch vector = s := by
  rcases s.trapDispatch_cases vector with
    ⟨rfl, _⟩ | ⟨rfl, _⟩ | ⟨rfl, _⟩ | ⟨rfl, _⟩ | ⟨rfl, _⟩ | ⟨rfl, _⟩ | ⟨_, hs⟩
  case inr.inr.inr.inr.inr.inr => exact hs
  all_goals exact absurd h (by decide)

/-- Settles O40: the decoder keeps the vector, and the vector alone says what a trap does. -/
theorem trapDispatchesOnVector : Obligations.TrapDispatchesOnVector := by
  refine ⟨fun ir s hop => ?word, fun s => ?services, fun vector s hvector => ?others, fun vector s => ?cond⟩
  case word =>
    rw [decode_of_opcode_trap hop]
    exact exec_eq_of_trapVector (trapVector_decodeVector _) rfl s
  case services =>
    exact ⟨exec_eq_of_trapVector rfl rfl s, exec_eq_of_trapVector rfl rfl s, exec_eq_of_trapVector rfl rfl s,
      exec_eq_of_trapVector rfl rfl s, exec_eq_of_trapVector rfl rfl s, exec_eq_of_trapVector rfl rfl s⟩
  case others => rw [exec_of_trapVector rfl, State.trapDispatch_of_no_service s hvector]
  case cond => exact ⟨_, exec_of_trapVector rfl s, (s.trapDispatch_keeps vector).cond⟩

/-! ### The input services when a byte waits (rules R141, R144) -/

theorem State.serviceGetc_of_input (s : State) {b : Byte} {rest : List Byte} (h : s.input = b :: rest) :
    s.serviceGetc = ((s.withInput rest).withReg .r0 (zext b)).withPhase .boundary := by
  rw [State.serviceGetc, State.inByte, h]

theorem State.serviceIn_of_input (s : State) {b : Byte} {rest : List Byte} (h : s.input = b :: rest) :
    s.serviceIn =
      ((((s.withObuf (s.promptOnce.obuf ++ [b])).withInput rest).withReg .r0 (zext b)).flush).withPhase .boundary := by
  rcases s.serviceIn_cases with ⟨hnone, _⟩ | ⟨b', rest', hinput, hs⟩
  · simp [h] at hnone
  · obtain ⟨rfl, rfl⟩ := List.cons.inj (h.symm.trans hinput)
    exact hs

/-- An IN that already waits does not write its prompt again. -/
theorem State.promptOnce_of_wait (s : State) (h : s.phase = .inputWait) : s.promptOnce = s := by
  rcases s.promptOnce_cases with ⟨_, hs⟩ | ⟨hphase, _⟩
  · exact hs
  · exact absurd h hphase

theorem State.promptOnce_of_no_wait (s : State) (h : s.phase ≠ .inputWait) :
    s.promptOnce = s.withObuf (s.obuf ++ Config.inPrompt) := by
  rcases s.promptOnce_cases with ⟨hphase, _⟩ | ⟨_, hs⟩
  · exact absurd hphase h
  · exact hs

/-! ### What a service changes (rule R148) -/

theorem KeepsAllBut.memSame {written : Option Reg} {s t : State} (h : KeepsAllBut written s t) : MemSame s t :=
  fun a => congrArg (Memory.readAt · a.toNat) h.mem

theorem KeepsAllBut.regsSameBut {r : Reg} {s t : State} (h : KeepsAllBut (some r) s t) : RegsSameBut r s t :=
  fun q hq => h.regs q fun hr => hq (Option.some.inj hr).symm

theorem KeepsAllBut.regsSame {s t : State} (h : KeepsAllBut none s t) : RegsSame s t :=
  fun q => h.regs q nofun

theorem RegsSame.regsSameBut {s t : State} (h : RegsSame s t) (r : Reg) : RegsSameBut r s t :=
  fun q _ => h q

/-- GETC and IN write R0, the other vectors no register. -/
theorem State.trapDispatch_regs (s : State) (vector : BitVec 8) :
    RegsSameBut .r0 s (s.trapDispatch vector) ∧
      (vector ≠ 0x20 → vector ≠ 0x23 → RegsSame s (s.trapDispatch vector)) := by
  have hkeeps := s.trapDispatch_keeps vector
  by_cases hread : vector = 0x20 ∨ vector = 0x23
  · rw [destReg, if_pos hread] at hkeeps
    exact ⟨hkeeps.regsSameBut, fun hgetc hin => (hread.elim hgetc hin).elim⟩
  · rw [destReg, if_neg hread] at hkeeps
    exact ⟨hkeeps.regsSame.regsSameBut .r0, fun _ _ => hkeeps.regsSame⟩

theorem State.serviceGetc_run (s : State) : s.serviceGetc.run = s.run := by
  rcases s.serviceGetc_cases with ⟨_, h⟩ | ⟨b, rest, _, h⟩ <;> rw [h] <;> rfl

theorem State.serviceIn_run (s : State) : s.serviceIn.run = s.run := by
  rcases s.serviceIn_cases with ⟨_, h⟩ | ⟨b, rest, _, h⟩ <;> rw [h] <;> rfl

theorem State.serviceString_run (s : State) (chars : Word → List Byte) : (s.serviceString chars).run = s.run := by
  rcases s.serviceString_cases chars with ⟨_, h⟩ | ⟨ws, _, h⟩ <;> rw [h] <;> rfl

/-- Only HALT changes the run state. -/
theorem State.trapDispatch_run (s : State) {vector : BitVec 8} (hhalt : vector ≠ 0x25) :
    (s.trapDispatch vector).run = s.run := by
  rcases s.trapDispatch_cases vector with
    ⟨_, h⟩ | ⟨_, h⟩ | ⟨_, h⟩ | ⟨_, h⟩ | ⟨_, h⟩ | ⟨hv, _⟩ | ⟨_, h⟩
  · rw [h, s.serviceGetc_run]
  · rw [h]; rfl
  · exact h ▸ s.serviceString_run charOfWord
  · rw [h, s.serviceIn_run]
  · exact h ▸ s.serviceString_run charsOfWord
  · exact absurd hv hhalt
  · rw [h]

/-- Settles O50: the dispatcher's frame, under both spellings. -/
theorem trapServicesWriteOnlyR0 : Obligations.TrapServicesWriteOnlyR0 := by
  intro i vector s t hi h
  obtain rfl := Host.Outcome.next.inj ((exec_of_trapVector hi s).symm.trans h)
  have hkeeps := s.trapDispatch_keeps vector
  obtain ⟨hbutR0, hall⟩ := s.trapDispatch_regs vector
  exact ⟨hbutR0, hall, hkeeps.memSame, hkeeps.cond, hkeeps.pc, s.trapDispatch_run⟩

/-! ### What a service reads (rule R148)

Two states that agree on what a service may read still agree on it after each operation a service is made of, so after
each service. -/

/-- The states agree on R0, memory, the run state, the console and the phase: on all but R1..R7, PC and COND. -/
structure AgreeForTrap (s s' : State) : Prop where
  r0 : s'.reg .r0 = s.reg .r0
  mem : s'.mem = s.mem
  run : s'.run = s.run
  obuf : s'.obuf = s.obuf
  input : s'.input = s.input
  sink : s'.sink = s.sink
  phase : s'.phase = s.phase

section
variable {s s' : State}

theorem AgreeForTrap.of_consoleSame (hr0 : s'.reg .r0 = s.reg .r0) (hmem : s'.mem = s.mem) (h : ConsoleSame s s') :
    AgreeForTrap s s' :=
  let ⟨hrun, hobuf, hinput, hsink, hphase⟩ := h
  ⟨hr0, hmem, hrun, hobuf, hinput, hsink, hphase⟩

theorem AgreeForTrap.consoleSame (h : AgreeForTrap s s') : ConsoleSame s s' :=
  ⟨h.run, h.obuf, h.input, h.sink, h.phase⟩

theorem AgreeForTrap.withR0 (h : AgreeForTrap s s') (v : Word) : AgreeForTrap (s.withReg .r0 v) (s'.withReg .r0 v) :=
  { h with r0 := rfl }

theorem AgreeForTrap.withRun (h : AgreeForTrap s s') (r : RunState) : AgreeForTrap (s.withRun r) (s'.withRun r) :=
  { h with run := rfl }

theorem AgreeForTrap.withInput (h : AgreeForTrap s s') (bs : List Byte) :
    AgreeForTrap (s.withInput bs) (s'.withInput bs) :=
  { h with input := rfl }

theorem AgreeForTrap.withPhase (h : AgreeForTrap s s') (p : Phase) : AgreeForTrap (s.withPhase p) (s'.withPhase p) :=
  { h with phase := rfl }

theorem AgreeForTrap.withObuf (h : AgreeForTrap s s') (bs : List Byte) :
    AgreeForTrap (s.withObuf bs) (s'.withObuf bs) :=
  { h with obuf := rfl }

theorem AgreeForTrap.outBytes (h : AgreeForTrap s s') (bs : List Byte) :
    AgreeForTrap (s.outBytes bs) (s'.outBytes bs) :=
  { h with obuf := congrArg (· ++ bs) h.obuf }

theorem AgreeForTrap.flush (h : AgreeForTrap s s') : AgreeForTrap s.flush s'.flush :=
  { h with obuf := rfl, sink := by simp [h.sink, h.obuf] }

/-! The services, each on the byte or the words it finds. -/

theorem AgreeForTrap.serviceGetc (h : AgreeForTrap s s') : AgreeForTrap s.serviceGetc s'.serviceGetc := by
  cases hinput : s.input with
  | nil =>
    rw [s.serviceGetc_of_no_input hinput, s'.serviceGetc_of_no_input (h.input.trans hinput)]
    exact h.withPhase .inputWait
  | cons b rest =>
    rw [s.serviceGetc_of_input hinput, s'.serviceGetc_of_input (h.input.trans hinput)]
    exact ((h.withInput rest).withR0 (zext b)).withPhase .boundary

theorem AgreeForTrap.serviceOut (h : AgreeForTrap s s') : AgreeForTrap s.serviceOut s'.serviceOut := by
  rw [State.serviceOut, State.serviceOut, h.r0]
  exact (h.outBytes [lowByte (s.reg .r0)]).flush

theorem AgreeForTrap.serviceString (h : AgreeForTrap s s') (chars : Word → List Byte) :
    AgreeForTrap (s.serviceString chars) (s'.serviceString chars) := by
  rw [State.serviceString, State.serviceString, h.mem, h.r0]
  split
  · exact h.withPhase .endlessScan
  · exact (h.outBytes _).flush

theorem AgreeForTrap.promptOnce_obuf (h : AgreeForTrap s s') : s'.promptOnce.obuf = s.promptOnce.obuf := by
  by_cases hwait : s.phase = .inputWait
  · rw [s.promptOnce_of_wait hwait, s'.promptOnce_of_wait (h.phase.trans hwait), h.obuf]
  · rw [s.promptOnce_of_no_wait hwait, s'.promptOnce_of_no_wait (h.phase.trans_ne hwait), h.obuf]
    rfl

theorem AgreeForTrap.serviceIn (h : AgreeForTrap s s') : AgreeForTrap s.serviceIn s'.serviceIn := by
  cases hinput : s.input with
  | nil =>
    rw [s.serviceIn_of_no_input hinput, s'.serviceIn_of_no_input (h.input.trans hinput), h.promptOnce_obuf]
    exact (h.withObuf _).withPhase .inputWait
  | cons b rest =>
    rw [s.serviceIn_of_input hinput, s'.serviceIn_of_input (h.input.trans hinput), h.promptOnce_obuf]
    exact ((((h.withObuf _).withInput rest).withR0 (zext b)).flush).withPhase .boundary

theorem AgreeForTrap.serviceHalt (h : AgreeForTrap s s') : AgreeForTrap s.serviceHalt s'.serviceHalt :=
  ((h.outBytes Config.haltNotice).flush).withRun .halted

theorem AgreeForTrap.trapDispatch (h : AgreeForTrap s s') (vector : BitVec 8) :
    AgreeForTrap (s.trapDispatch vector) (s'.trapDispatch vector) := by
  unfold State.trapDispatch
  split_ifs
  · exact h.serviceGetc
  · exact h.serviceOut
  · exact h.serviceString charOfWord
  · exact h.serviceIn
  · exact h.serviceString charsOfWord
  · exact h.serviceHalt
  · exact h

end

/-- Settles O51: agreement on what a service may read lasts through the dispatcher. -/
theorem trapServicesReadOnlyR0AndMemory : Obligations.TrapServicesReadOnlyR0AndMemory := by
  intro i vector s s' t hi hr0 hmem hconsole h
  obtain rfl := Host.Outcome.next.inj ((exec_of_trapVector hi s).symm.trans h)
  have hagree := (AgreeForTrap.of_consoleSame hr0 hmem hconsole).trapDispatch vector
  exact ⟨_, exec_of_trapVector hi s', hagree.r0, hagree.consoleSame⟩

/-! ### What a service delivers (rule R150) -/

/-- One flush has emptied the buffer: it delivered what was buffered and then some bytes. -/
def DeliversOneFlush (s t : State) : Prop :=
  t.obuf = [] ∧ ∃ bytes : List Byte, t.sink = s.sink ++ [s.obuf ++ bytes]

theorem State.outBytes_flush_delivers (s : State) (bytes : List Byte) :
    DeliversOneFlush s (s.outBytes bytes).flush :=
  ⟨rfl, bytes, rfl⟩

/-- GETC has no output. -/
theorem State.serviceGetc_output (s : State) : s.serviceGetc.obuf = s.obuf ∧ s.serviceGetc.sink = s.sink := by
  rcases s.serviceGetc_cases with ⟨_, h⟩ | ⟨b, rest, _, h⟩ <;> rw [h] <;> exact ⟨rfl, rfl⟩

/-- A string that ends is flushed, also when it is empty. -/
theorem State.serviceString_delivers (s : State) (chars : Word → List Byte)
    (hdone : (s.serviceString chars).phase = .boundary) : DeliversOneFlush s (s.serviceString chars) := by
  rcases s.serviceString_cases chars with ⟨_, h⟩ | ⟨ws, _, h⟩
  · rw [h] at hdone
    cases hdone
  · rw [h]
    exact s.outBytes_flush_delivers (ws.flatMap chars)

/-- The prompt goes behind what is buffered. -/
theorem State.promptOnce_obuf (s : State) : ∃ prompt : List Byte, s.promptOnce.obuf = s.obuf ++ prompt := by
  rcases s.promptOnce_cases with ⟨_, h⟩ | ⟨_, h⟩ <;> rw [h]
  · exact ⟨[], (List.append_nil _).symm⟩
  · exact ⟨Config.inPrompt, rfl⟩

/-- An IN that takes its byte flushes the prompt and the echo together. -/
theorem State.serviceIn_delivers (s : State) (hdone : s.serviceIn.phase = .boundary) :
    DeliversOneFlush s s.serviceIn := by
  rcases s.serviceIn_cases with ⟨_, h⟩ | ⟨b, rest, _, h⟩
  · rw [h] at hdone
    cases hdone
  · obtain ⟨prompt, hprompt⟩ := s.promptOnce_obuf
    rw [h, hprompt, List.append_assoc]
    exact ⟨rfl, prompt ++ [b], rfl⟩

/-- Settles O52: each of the five output services flushes when its cycle completes, and the others do not write. -/
theorem outputServicesFlush : Obligations.OutputServicesFlush := by
  intro i vector s t hi h hdone
  obtain rfl := Host.Outcome.next.inj ((exec_of_trapVector hi s).symm.trans h)
  rcases s.trapDispatch_cases vector with
    ⟨rfl, hs⟩ | ⟨rfl, hs⟩ | ⟨rfl, hs⟩ | ⟨rfl, hs⟩ | ⟨rfl, hs⟩ | ⟨rfl, hs⟩ | ⟨hrange, hs⟩ <;> rw [hs] at hdone ⊢
  · exact ⟨fun hout => absurd hout (by decide), fun _ => s.serviceGetc_output⟩
  · exact ⟨fun _ => s.outBytes_flush_delivers [lowByte (s.reg .r0)], fun hno => absurd (by decide) hno⟩
  · exact ⟨fun _ => s.serviceString_delivers charOfWord hdone, fun hno => absurd (by decide) hno⟩
  · exact ⟨fun _ => s.serviceIn_delivers hdone, fun hno => absurd (by decide) hno⟩
  · exact ⟨fun _ => s.serviceString_delivers charsOfWord hdone, fun hno => absurd (by decide) hno⟩
  · exact ⟨fun _ => s.outBytes_flush_delivers Config.haltNotice, fun hno => absurd (by decide) hno⟩
  · exact ⟨fun hout => by omega, fun _ => ⟨rfl, rfl⟩⟩

/-! ### GETC, OUT, IN and HALT -/

theorem exec_getc (s : State) : exec .getc s = .next s.serviceGetc := rfl

theorem exec_out (s : State) : exec .out s = .next (s.outBytes [lowByte (s.reg .r0)]).flush := rfl

theorem exec_in (s : State) : exec .in_ s = .next s.serviceIn := rfl

theorem exec_halt (s : State) : exec .halt s = .next ((s.outBytes Config.haltNotice).flush.withRun .halted) := rfl

/-- Settles O41: the byte goes into R0, and the frame is that of GETC. -/
theorem getcStoresNextByte : Obligations.GetcStoresNextByte := by
  intro s b rest hinput
  have hkeeps := s.serviceGetc_keeps
  have hexec := exec_getc s
  rw [s.serviceGetc_of_input hinput] at hkeeps hexec
  have hr0 := (s.withInput rest).withReg_reg_same .r0 (zext b)
  exact ⟨_, hexec, hr0, hkeeps.regsSameBut, hkeeps.cond, hkeeps.pc, hkeeps.memSame, rfl, rfl, rfl, rfl, rfl⟩

/-- Settles O42: the vector names OUT, which writes one byte and flushes. -/
theorem outWritesLowByte : Obligations.OutWritesLowByte := by
  refine ⟨fun ir hop hvector => ?_, fun s => exec_write_flush (exec_out s)⟩
  rw [decode_of_opcode_trap hop, vectorField, hvector]
  rfl

/-- Settles O46: what IN flushes is its buffer with the prompt in it and the echo, and the frame is that of IN. -/
theorem inPromptsReadsAndEchoes : Obligations.InPromptsReadsAndEchoes := by
  intro s b rest hinput
  have hkeeps := s.serviceIn_keeps
  have hexec := exec_in s
  rw [s.serviceIn_of_input hinput] at hkeeps hexec
  refine ⟨_, hexec, fun hfirst => ?prompt, fun hwait => ?noPrompt, ?r0, hkeeps.regsSameBut, hkeeps.cond, hkeeps.pc,
    hkeeps.memSame, rfl, rfl, rfl, rfl⟩
  case prompt => rw [s.promptOnce_of_no_wait hfirst]; rfl
  case noPrompt => rw [s.promptOnce_of_wait hwait]; rfl
  case r0 => exact State.withReg_reg_same _ .r0 (zext b)

/-- Settles O49: one flush delivers the notice, and the run state is the only other change. -/
theorem haltNotifiesAndStops : Obligations.HaltNotifiesAndStops := fun s =>
  ⟨_, exec_halt s, rfl, rfl, rfl, fun _ => rfl, rfl, rfl, fun _ => rfl, rfl, rfl⟩

end Sys2Proof.Machine
end

section
/-! RTI and the reserved opcode: their words, and that the fetch increment is all a cycle does with them (rules R160,
R161). -/

namespace Sys2Proof.Machine

/-! ### The words of the two handlers (rule R62) -/

theorem opcodeOf_of_bits {ir : Word} {op : Opcode} (h : ir.extractLsb' 12 4 = op.bits) : opcodeOf ir = op := by
  rw [opcodeOf, h, Opcode.ofBits_bits]

theorem decode_of_opcode_rti {ir : Word} (h : opcodeOf ir = .rti) : decode ir = .rti := by
  rw [decode, h]

theorem decode_of_opcode_res {ir : Word} (h : opcodeOf ir = .res) : decode ir = .reserved := by
  rw [decode, h]

/-! ### The cycle of a no-op -/

theorem exec_rti (s : State) : exec .rti s = .next s := rfl

theorem exec_reserved (s : State) : exec .reserved s = .next s := rfl

/-- A cycle begun at a boundary, whose handler does nothing, keeps the fetch increment (rule R23). -/
theorem step_of_exec_idle {s : State} (hrun : s.run = .running) (hphase : s.phase = .boundary)
    (h : exec (decode s.fetch) s.beginCycle = .next s.beginCycle) : step s = .next (s.withPc (s.pc + 1)) := by
  have hcycle : s.issuesCycle = true := s.issuesCycle_iff.2 ⟨hrun, by simp [hphase]⟩
  exact step_of_exec_boundary hcycle h hphase

/-- Settles O53: opcodes 8 and 13 are those of RTI and the reserved instruction, whose handlers do nothing. -/
theorem rtiAndReservedOnlyAdvancePc : Obligations.RtiAndReservedOnlyAdvancePc := by
  have hrti (ir : Word) (h : ir.extractLsb' 12 4 = 8) : decode ir = .rti :=
    decode_of_opcode_rti (opcodeOf_of_bits h)
  have hreserved (ir : Word) (h : ir.extractLsb' 12 4 = 13) : decode ir = .reserved :=
    decode_of_opcode_res (opcodeOf_of_bits h)
  refine ⟨hrti, hreserved, exec_rti, exec_reserved, fun s hrun hphase hopcode => step_of_exec_idle hrun hphase ?_⟩
  rcases hopcode with h8 | h13
  · rw [hrti _ h8, exec_rti]
  · rw [hreserved _ h13, exec_reserved]

end Sys2Proof.Machine
end

section
/-! The wait of GETC and IN: it lasts while no byte comes, and a delivered byte ends it (rules R32, R149, R181, R202). -/

namespace Sys2Proof.Machine

theorem State.withPhase_of_eq {s : State} {p : Phase} (h : s.phase = p) : s.withPhase p = s := by
  subst h
  rfl

theorem State.serviceGetc_of_wait (s : State) (hphase : s.phase = .inputWait) (hinput : s.input = []) :
    s.serviceGetc = s := by
  rw [s.serviceGetc_of_no_input hinput, State.withPhase_of_eq hphase]

theorem State.serviceIn_of_wait (s : State) (hphase : s.phase = .inputWait) (hinput : s.input = []) :
    s.serviceIn = s := by
  have hprompt : s.withObuf s.promptOnce.obuf = s := s.promptOnce_eq.symm.trans (s.promptOnce_of_wait hphase)
  rw [s.serviceIn_of_no_input hinput, hprompt, State.withPhase_of_eq hphase]

/-- A cycle waits only at a GETC or IN, with the prompt buffered exactly when it is an IN. -/
theorem ConsoleConsistent.of_wait {s : State} (h : ConsoleConsistent s) (hphase : s.phase = .inputWait) :
    (decode s.fetch = .getc ∧ s.obuf = []) ∨ (decode s.fetch = .in_ ∧ s.obuf = Config.inPrompt) := by
  simpa only [ConsoleConsistent, hphase] using h

theorem State.issuesCycle_of_wait {s : State} (hrun : s.run = .running) (hphase : s.phase = .inputWait) :
    s.issuesCycle = true :=
  s.issuesCycle_iff.2 ⟨hrun, by simp [hphase]⟩

/-- A GETC or IN that waits goes on waiting: the handler does nothing, and the end of its cycle puts PC back. -/
theorem step_of_wait {s : State} (hrun : s.run = .running) (hphase : s.phase = .inputWait) (hinput : s.input = [])
    (hread : decode s.fetch = .getc ∨ decode s.fetch = .in_) : step s = .next s := by
  have hexec : exec (decode s.fetch) s.beginCycle = .next s.beginCycle := by
    rcases hread with hgetc | hin
    · rw [hgetc, exec_getc, s.beginCycle.serviceGetc_of_wait hphase hinput]
    · rw [hin, exec_in, s.beginCycle.serviceIn_of_wait hphase hinput]
  have hend : s.beginCycle.endCycle s.pc = s := by
    have hwait : s.beginCycle.phase ≠ .boundary := by simp [State.beginCycle, hphase]
    rw [State.endCycle_eq, if_neg hwait]
    rfl
  rw [step_of_exec (State.issuesCycle_of_wait hrun hphase) hexec, hend]

/-- Settles O48: by the invariant the waiting instruction is a GETC with nothing buffered or an IN with its prompt
buffered; the delivered byte is then the next byte that its handler takes (O41, O46). -/
theorem deliveredByteEndsWait : Obligations.DeliveredByteEndsWait := by
  intro s b hinv hrun hphase hinput
  have hconsole := hinv.console.of_wait hphase
  refine ⟨step_of_wait hrun hphase hinput (hconsole.imp And.left And.left), ?_⟩
  have hcycle : (s.deliver b).issuesCycle = true := State.issuesCycle_of_wait hrun hphase
  have hport : (s.deliver b).beginCycle.input = [b] := congrArg (· ++ [b]) hinput
  rcases hconsole with ⟨hgetc, hobuf⟩ | ⟨hin, hobuf⟩
  · obtain ⟨t, hexec, hr0, hregs, hcond, hpc, hmem, hrest, _, hsame, hsink, hdone⟩ :=
      getcStoresNextByte (s.deliver b).beginCycle b [] hport
    have hstep : step (s.deliver b) = .next t := step_of_exec_boundary hcycle (hgetc ▸ hexec) hdone
    exact ⟨t, hstep, hr0, hregs, hcond, hpc, hmem, hrest, hsame.trans hobuf, hdone, fun _ => hsink,
      fun h => absurd (hgetc.symm.trans h) (by decide)⟩
  · obtain ⟨t, hexec, _, hsink, hr0, hregs, hcond, hpc, hmem, hrest, _, hempty, hdone⟩ :=
      inPromptsReadsAndEchoes (s.deliver b).beginCycle b [] hport
    have hstep : step (s.deliver b) = .next t := step_of_exec_boundary hcycle (hin ▸ hexec) hdone
    have hflushed : t.sink = s.sink ++ [s.obuf ++ [b]] := hsink hphase
    exact ⟨t, hstep, hr0, hregs, hcond, hpc, hmem, hrest, hempty, hdone,
      fun h => absurd (hin.symm.trans h) (by decide), fun _ => hobuf ▸ hflushed⟩

end Sys2Proof.Machine
end

section
/-! The loader: the words of an image, what copying them sets and leaves alone, and where a booted machine starts (rules
R191, R193). -/

namespace Sys2Proof.Machine

/-! ### The words of an image (rule R193) -/

theorem append_eq_ofNat (hi lo : Byte) : hi ++ lo = BitVec.ofNat 16 (hi.toNat * 256 + lo.toNat) := by
  apply BitVec.eq_of_toNat_eq
  rw [BitVec.toNat_append, ← Nat.shiftLeft_add_eq_or_of_lt lo.isLt, Nat.shiftLeft_eq, BitVec.toNat_ofNat]
  have := hi.isLt
  have := lo.isLt
  omega

theorem imageWordAt_zero (hi lo : Byte) (bs : List Byte) : imageWordAt (hi :: lo :: bs) 0 = hi ++ lo :=
  (append_eq_ofNat hi lo).symm

theorem imageWordAt_succ (hi lo : Byte) (bs : List Byte) (k : Nat) :
    imageWordAt (hi :: lo :: bs) (k + 1) = imageWordAt bs k := rfl

/-- The words that the loader finds in an even number of bytes are those of rule R193. -/
theorem imageWords_eq_some (image : List Byte) (heven : image.length % 2 = 0) :
    imageWords image = some ((List.range (image.length / 2)).map (imageWordAt image)) := by
  induction image using imageWords.induct with
  | case1 => rfl
  | case2 b => cases heven
  | case3 hi lo bs ih =>
    have hlen : (hi :: lo :: bs).length = bs.length + 2 := rfl
    have hrest : bs.length % 2 = 0 := by omega
    have hhalf : (hi :: lo :: bs).length / 2 = bs.length / 2 + 1 := by omega
    rw [imageWords, ih hrest, hhalf, List.range_succ_eq_map]
    simp only [Option.map_some, List.map_cons, List.map_map, imageWordAt_zero, Function.comp_def, Nat.succ_eq_add_one,
      imageWordAt_succ]

/-- An image with an origin word loads, by copying the content words after it from the origin on. -/
theorem loadImage_eq_some (m : Memory) {image : List Byte} (heven : image.length % 2 = 0) (hlen : 2 ≤ image.length) :
    ∃ ws : List Word, loadImage m image = some (copyWords m (imageWordAt image 0) ws) ∧
      ws.length + 1 = image.length / 2 ∧ ∀ (k : Nat) (hk : k < ws.length), ws[k] = imageWordAt image (k + 1) := by
  obtain ⟨n, hn⟩ : ∃ n, image.length / 2 = n + 1 := Nat.exists_eq_add_one.2 (Nat.div_pos hlen two_pos)
  refine ⟨(List.range n).map fun k => imageWordAt image (k + 1), ?loads, ?count, fun k hk => ?word⟩
  case loads =>
    rw [loadImage, imageWords_eq_some image heven, hn, List.range_succ_eq_map, List.map_cons, List.map_map]
    rfl
  case count => rw [List.length_map, List.length_range, hn]
  case word => rw [List.getElem_map, List.getElem_range]

/-- The address of content word `k + 1` lies `k` words after the origin. -/
theorem imageAddress_succ (image : List Byte) (k : Nat) :
    imageAddress image (k + 1) = (wordsAfter (imageWordAt image 0) k).toNat := by
  rw [wordsAfter, BitVec.toNat_add, BitVec.toNat_ofNat, Nat.add_mod_mod]
  rfl

/-! ### What copying sets and leaves alone -/

/-- Copying leaves alone every address that no copied word has. -/
theorem copyWords_readAt_of_ne {m : Memory} {a b : Word} {ws : List Word} (hwf : Memory.wf m = true)
    (hne : ∀ k : Nat, k < ws.length → wordsAfter a k ≠ b) :
    Memory.readAt (copyWords m a ws) b.toNat = Memory.readAt m b.toNat := by
  induction ws generalizing m a with
  | nil => rfl
  | cons w ws ih =>
    have hfirst : b ≠ a := fun h => hne 0 (Nat.succ_pos _) ((wordsAfter_zero a).trans h.symm)
    have hrest : ∀ k : Nat, k < ws.length → wordsAfter (a + 1) k ≠ b := fun k hk =>
      wordsAfter_add_one a k ▸ hne (k + 1) (Nat.succ_lt_succ hk)
    rw [copyWords, ih (Memory.writeAt_wf m a.toNat w (toNat_lt_memWords a) hwf) hrest,
      Memory.readAt_writeAt m a.toNat b.toNat w hwf, if_neg (mt BitVec.toNat_inj.1 hfirst)]

/-- A copied word stands at its address unless a later one has the same address. -/
theorem copyWords_readAt {m : Memory} {a : Word} {ws : List Word} (hwf : Memory.wf m = true) {k : Nat}
    (hk : k < ws.length) (hlast : ∀ j : Nat, k < j → j < ws.length → wordsAfter a j ≠ wordsAfter a k) :
    Memory.readAt (copyWords m a ws) (wordsAfter a k).toNat = ws[k] := by
  induction ws generalizing m a k with
  | nil => cases hk
  | cons w ws ih =>
    have hwrite := Memory.writeAt_wf m a.toNat w (toNat_lt_memWords a) hwf
    cases k with
    | zero =>
      have hne : ∀ j : Nat, j < ws.length → wordsAfter (a + 1) j ≠ a := fun j hj h =>
        hlast (j + 1) j.succ_pos (Nat.succ_lt_succ hj)
          ((wordsAfter_add_one a j).symm.trans (h.trans (wordsAfter_zero a).symm))
      rw [wordsAfter_zero, copyWords, copyWords_readAt_of_ne hwrite hne,
        Memory.readAt_writeAt m a.toNat a.toNat w hwf, if_pos rfl]
      rfl
    | succ k =>
      rw [copyWords, ← wordsAfter_add_one]
      refine ih hwrite (Nat.lt_of_succ_lt_succ hk) fun j hkj hj => ?_
      rw [wordsAfter_add_one, wordsAfter_add_one]
      exact hlast (j + 1) (Nat.succ_lt_succ hkj) (Nat.succ_lt_succ hj)

/-! ### Loading and booting -/

/-- Settles O10: the image's content words are copied from its origin on, and content word `k + 1` is word `k` of the
copy. -/
theorem imageCopiedToOrigin : Obligations.ImageCopiedToOrigin := by
  intro m image hwf heven hlen
  obtain ⟨ws, hload, hcount, hword⟩ := loadImage_eq_some m heven hlen
  refine ⟨_, hload, fun k hpos hk hlast => ?copied, fun a hne => ?others⟩
  case copied =>
    obtain ⟨k, rfl⟩ := Nat.exists_eq_add_one.2 hpos
    have hkws : k < ws.length := by omega
    rw [imageAddress_succ, ← hword k hkws]
    refine copyWords_readAt hwf hkws fun j hkj hj h => ?_
    exact hlast (j + 1) (by omega) (by omega) (by rw [imageAddress_succ, imageAddress_succ, h])
  case others =>
    refine copyWords_readAt_of_ne hwf fun k hk h => ?_
    exact hne (k + 1) (by omega) (by omega) (by rw [imageAddress_succ, h])

/-- Settles O7: the launch sets PC and the run state, whatever memory the images leave. -/
theorem bootStartsAtResetPc : Obligations.BootStartsAtResetPc := by
  intro images input s hboot
  obtain ⟨_, m, _, rfl⟩ := State.boot_some images input s hboot
  exact ⟨State.launch_pc m input, State.launch_run m input, rfl⟩

end Sys2Proof.Machine
end

section
/-! Where each format of rule R63 puts its fields: a field read from a word of the format is the operand placed there,
and a format filled with a word's own fields gives that word back on the bits its handler reads (rules R63, R66). -/

namespace Sys2Proof

/-! ### A placed field -/

/-- A field reads back from its own place. -/
@[simp] theorem extractLsb'_place_same {n : Nat} (lo : Nat) (f : BitVec n) (h : lo + n ≤ 16) :
    (place lo f).extractLsb' lo n = f :=
  BitVec.eq_of_getLsbD_eq fun i hi => by
    have hbit : lo + i < 16 := by omega
    simp [hi, hbit]

/-- A placed field has no bit below or above its place. -/
@[simp] theorem extractLsb'_place_of_disjoint {n : Nat} (lo len lo' : Nat) (f : BitVec n)
    (h : lo' + n ≤ lo ∨ lo + len ≤ lo') : (place lo' f).extractLsb' lo len = 0 :=
  BitVec.eq_of_getLsbD_eq fun i hi => by
    rw [BitVec.getLsbD_extractLsb', getLsbD_place]
    rcases h with habove | hbelow
    · have hend : f.getLsbD (lo + i - lo') = false := BitVec.getLsbD_of_ge _ _ (by omega)
      simp [hend]
    · have hstart : ¬ lo' ≤ lo + i := by omega
      simp [hstart]

/-- A word's own field, put back in its place, is the word masked there. -/
theorem place_extractLsb' (w : Word) (lo n : Nat) :
    place lo (w.extractLsb' lo n) = w &&& place lo (BitVec.allOnes n) :=
  BitVec.eq_of_getLsbD_eq fun i hi => by
    rw [BitVec.getLsbD_and, getLsbD_place, getLsbD_place, BitVec.getLsbD_extractLsb', BitVec.getLsbD_allOnes]
    by_cases hlo : lo ≤ i
    · rw [Nat.add_sub_cancel' hlo]
      simp [hi, hlo, Bool.and_comm]
    · simp [hlo]

/-! ### The operands of a word of each format -/

@[simp] theorem opcodeOf_encodePc9 (op : Opcode) (b : BitVec 3) (offset9 : BitVec 9) :
    opcodeOf (encodePc9 op b offset9) = op := by
  simp [opcodeOf, encodePc9, BitVec.extractLsb'_or]

@[simp] theorem fields_encodePc9 (op : Opcode) (b : BitVec 3) (offset9 : BitVec 9) :
    condField (encodePc9 op b offset9) = b ∧ regField (encodePc9 op b offset9) 9 = Reg.ofBits b ∧
      offset9Field (encodePc9 op b offset9) = offset9 := by
  simp [condField, regField, offset9Field, encodePc9, BitVec.extractLsb'_or]

@[simp] theorem opcodeOf_encodeR3 (op : Opcode) (dr sr1 sr2 : Reg) : opcodeOf (encodeR3 op dr sr1 sr2) = op := by
  simp [opcodeOf, encodeR3, BitVec.extractLsb'_or]

@[simp] theorem fields_encodeR3 (op : Opcode) (dr sr1 sr2 : Reg) :
    (encodeR3 op dr sr1 sr2)[5] = false ∧ regField (encodeR3 op dr sr1 sr2) 9 = dr ∧
      regField (encodeR3 op dr sr1 sr2) 6 = sr1 ∧ regField (encodeR3 op dr sr1 sr2) 0 = sr2 := by
  simp [regField, encodeR3, BitVec.extractLsb'_or]

@[simp] theorem opcodeOf_encodeI5 (op : Opcode) (dr sr1 : Reg) (imm5 : BitVec 5) :
    opcodeOf (encodeI5 op dr sr1 imm5) = op := by
  simp [opcodeOf, encodeI5, BitVec.extractLsb'_or]

@[simp] theorem fields_encodeI5 (op : Opcode) (dr sr1 : Reg) (imm5 : BitVec 5) :
    (encodeI5 op dr sr1 imm5)[5] = true ∧ regField (encodeI5 op dr sr1 imm5) 9 = dr ∧
      regField (encodeI5 op dr sr1 imm5) 6 = sr1 ∧ imm5Field (encodeI5 op dr sr1 imm5) = imm5 := by
  simp [regField, imm5Field, encodeI5, BitVec.extractLsb'_or]

@[simp] theorem opcodeOf_encodeB6 (op : Opcode) (r baseR : Reg) (offset6 : BitVec 6) :
    opcodeOf (encodeB6 op r baseR offset6) = op := by
  simp [opcodeOf, encodeB6, BitVec.extractLsb'_or]

@[simp] theorem fields_encodeB6 (op : Opcode) (r baseR : Reg) (offset6 : BitVec 6) :
    regField (encodeB6 op r baseR offset6) 9 = r ∧ regField (encodeB6 op r baseR offset6) 6 = baseR ∧
      offset6Field (encodeB6 op r baseR offset6) = offset6 := by
  simp [regField, offset6Field, encodeB6, BitVec.extractLsb'_or]

@[simp] theorem opcodeOf_encodeBase (op : Opcode) (baseR : Reg) : opcodeOf (encodeBase op baseR) = op := by
  simp [opcodeOf, encodeBase, BitVec.extractLsb'_or]

@[simp] theorem fields_encodeBase (op : Opcode) (baseR : Reg) :
    (encodeBase op baseR)[11] = false ∧ regField (encodeBase op baseR) 6 = baseR := by
  simp [regField, encodeBase, BitVec.extractLsb'_or]

@[simp] theorem opcodeOf_encodeJ11 (offset11 : BitVec 11) : opcodeOf (encodeJ11 offset11) = .jsr := by
  simp [opcodeOf, encodeJ11, BitVec.extractLsb'_or]

@[simp] theorem fields_encodeJ11 (offset11 : BitVec 11) :
    (encodeJ11 offset11)[11] = true ∧ offset11Field (encodeJ11 offset11) = offset11 := by
  simp [offset11Field, encodeJ11, BitVec.extractLsb'_or]

@[simp] theorem opcodeOf_encodeT8 (vector : BitVec 8) : opcodeOf (encodeT8 vector) = .trap := by
  simp [opcodeOf, encodeT8, BitVec.extractLsb'_or]

@[simp] theorem vectorField_encodeT8 (vector : BitVec 8) : vectorField (encodeT8 vector) = vector := by
  simp [vectorField, encodeT8, BitVec.extractLsb'_or]

/-! ### A format filled with a word's own fields -/

@[simp] theorem opcodeOf_bits (w : Word) : (opcodeOf w).bits = w.extractLsb' 12 4 := Opcode.bits_ofBits _

@[simp] theorem regField_bits (w : Word) (lo : Nat) : (regField w lo).bits = w.extractLsb' lo 3 := Reg.bits_ofBits _

/-- A one-bit field is the bit. -/
theorem extractLsb'_one (w : Word) (i : Nat) : w.extractLsb' i 1 = BitVec.ofBool (w.getLsbD i) :=
  BitVec.eq_of_getLsbD_eq fun j hj => by
    obtain rfl : j = 0 := Nat.lt_one_iff.1 hj
    simp

theorem encodePc9_of_word {w : Word} {op : Opcode} (hop : opcodeOf w = op) :
    encodePc9 op (w.extractLsb' 9 3) (offset9Field w) = w &&& 0xFFFF := by
  have hmask : (0xFFFF : Word) =
      place 12 (BitVec.allOnes 4) ||| place 9 (BitVec.allOnes 3) ||| place 0 (BitVec.allOnes 9) := by decide
  subst hop
  simp only [hmask, BitVec.and_or_distrib_left, ← place_extractLsb', encodePc9, opcodeOf_bits, offset9Field]

/-- Mode 0: bit 5 of the word is clear, as in the encoding. -/
theorem encodeR3_of_word {w : Word} {op : Opcode} (hop : opcodeOf w = op) (hmode : w.getLsbD 5 = false) :
    encodeR3 op (regField w 9) (regField w 6) (regField w 0) = w &&& 0xFFE7 := by
  have hmask : (0xFFE7 : Word) =
      place 12 (BitVec.allOnes 4) ||| place 9 (BitVec.allOnes 3) ||| place 6 (BitVec.allOnes 3) |||
        place 5 (BitVec.allOnes 1) ||| place 0 (BitVec.allOnes 3) := by decide
  have hbit : place 5 (w.extractLsb' 5 1) = 0 := by rw [extractLsb'_one, hmode]; rfl
  subst hop
  simp only [hmask, BitVec.and_or_distrib_left, ← place_extractLsb', hbit, encodeR3, opcodeOf_bits, regField_bits]
  simp

theorem encodeI5_of_word {w : Word} {op : Opcode} (hop : opcodeOf w = op) (hmode : w.getLsbD 5 = true) :
    encodeI5 op (regField w 9) (regField w 6) (imm5Field w) = w &&& 0xFFFF := by
  have hmask : (0xFFFF : Word) =
      place 12 (BitVec.allOnes 4) ||| place 9 (BitVec.allOnes 3) ||| place 6 (BitVec.allOnes 3) |||
        place 5 (BitVec.allOnes 1) ||| place 0 (BitVec.allOnes 5) := by decide
  have hbit : w.extractLsb' 5 1 = 1#1 := by rw [extractLsb'_one, hmode]; rfl
  subst hop
  simp only [hmask, BitVec.and_or_distrib_left, ← place_extractLsb', hbit, encodeI5, opcodeOf_bits, regField_bits,
    imm5Field]

theorem encodeB6_of_word {w : Word} {op : Opcode} (hop : opcodeOf w = op) :
    encodeB6 op (regField w 9) (regField w 6) (offset6Field w) = w &&& 0xFFFF := by
  have hmask : (0xFFFF : Word) =
      place 12 (BitVec.allOnes 4) ||| place 9 (BitVec.allOnes 3) ||| place 6 (BitVec.allOnes 3) |||
        place 0 (BitVec.allOnes 6) := by decide
  subst hop
  simp only [hmask, BitVec.and_or_distrib_left, ← place_extractLsb', encodeB6, opcodeOf_bits, regField_bits,
    offset6Field]

/-- The words of NOT differ from a word of format B6 in the unread low bits only, all set by the encoder (rule R71). -/
theorem encodeB6_ones_of_word {w : Word} {op : Opcode} (hop : opcodeOf w = op) :
    encodeB6 op (regField w 9) (regField w 6) 0b111111#6 &&& 0xFFC0 = w &&& 0xFFC0 := by
  have hmask : (0xFFC0 : Word) =
      place 12 (BitVec.allOnes 4) ||| place 9 (BitVec.allOnes 3) ||| place 6 (BitVec.allOnes 3) := by decide
  subst hop
  simp only [hmask, BitVec.and_or_distrib_left, ← place_extractLsb', encodeB6]
  simp [BitVec.extractLsb'_or]

theorem encodeBase_of_word {w : Word} {op : Opcode} (hop : opcodeOf w = op) :
    encodeBase op (regField w 6) = w &&& 0xF1C0 := by
  have hmask : (0xF1C0 : Word) = place 12 (BitVec.allOnes 4) ||| place 6 (BitVec.allOnes 3) := by decide
  subst hop
  simp only [hmask, BitVec.and_or_distrib_left, ← place_extractLsb', encodeBase, opcodeOf_bits, regField_bits]

/-- Mode 0 of the JSR handler: bit 11 of the word is clear, as in the encoding. -/
theorem encodeBase_of_word_mode {w : Word} {op : Opcode} (hop : opcodeOf w = op) (hmode : w.getLsbD 11 = false) :
    encodeBase op (regField w 6) = w &&& 0xF9C0 := by
  have hmask : (0xF9C0 : Word) = 0xF1C0 ||| place 11 (BitVec.allOnes 1) := by decide
  have hbit : place 11 (w.extractLsb' 11 1) = 0 := by rw [extractLsb'_one, hmode]; rfl
  rw [hmask, BitVec.and_or_distrib_left, ← place_extractLsb', hbit, encodeBase_of_word hop]
  exact BitVec.or_zero.symm

theorem encodeJ11_of_word {w : Word} (hop : opcodeOf w = .jsr) (hmode : w.getLsbD 11 = true) :
    encodeJ11 (offset11Field w) = w &&& 0xFFFF := by
  have hmask : (0xFFFF : Word) =
      place 12 (BitVec.allOnes 4) ||| place 11 (BitVec.allOnes 1) ||| place 0 (BitVec.allOnes 11) := by decide
  have hbit : w.extractLsb' 11 1 = 1#1 := by rw [extractLsb'_one, hmode]; rfl
  simp only [hmask, BitVec.and_or_distrib_left, ← place_extractLsb', hbit, encodeJ11, ← hop, opcodeOf_bits,
    offset11Field]

theorem encodeT8_of_word {w : Word} (hop : opcodeOf w = .trap) : encodeT8 (vectorField w) = w &&& 0xF0FF := by
  have hmask : (0xF0FF : Word) = place 12 (BitVec.allOnes 4) ||| place 0 (BitVec.allOnes 8) := by decide
  simp only [hmask, BitVec.and_or_distrib_left, ← place_extractLsb', encodeT8, ← hop, opcodeOf_bits, vectorField]

/-- The words of RTI and the reserved opcode carry the opcode only. -/
theorem place_opcode_of_word {w : Word} {op : Opcode} (hop : opcodeOf w = op) :
    place 12 op.bits = w &&& 0xF000 := by
  have hmask : (0xF000 : Word) = place 12 (BitVec.allOnes 4) := by decide
  rw [hmask, ← place_extractLsb', ← hop, opcodeOf_bits]

end Sys2Proof
end

section
/-! Words that agree under a mask: the fields and bits it covers. That a mask covers a field is a closed fact of the two,
so each of these lemmas finds it by `decide`. -/

namespace Sys2Proof

/-- Two words differ in no bit of a mask exactly when they are equal under it. -/
theorem xor_and_eq_zero_iff (v w m : Word) : (v ^^^ w) &&& m = 0 ↔ v &&& m = w &&& m := by
  have hdistrib : (v ^^^ w) &&& m = (v &&& m) ^^^ (w &&& m) := by
    ext i hi
    simp [Bool.and_xor_distrib_right]
  rw [hdistrib]
  exact BitVec.xor_eq_zero_iff

/-- A field that the mask covers, read from the masked value. -/
theorem extractLsb'_of_and_eq {w m c : Word} {lo n : Nat} (h : w &&& m = c)
    (hm : m.extractLsb' lo n = BitVec.allOnes n := by decide) : w.extractLsb' lo n = c.extractLsb' lo n := by
  rw [← h, BitVec.extractLsb'_and, hm, BitVec.and_allOnes]

/-- A bit that the mask covers, read from the masked value. -/
theorem getLsbD_of_and_eq {w m c : Word} {i : Nat} (h : w &&& m = c) (hm : m.getLsbD i = true := by decide) :
    w.getLsbD i = c.getLsbD i := by
  rw [← h, BitVec.getLsbD_and, hm, Bool.and_true]

/-- The handler of every word that fits a row whose mask covers the opcode is that of the row's match. -/
theorem opcodeOf_of_row {w m c : Word} {op : Opcode} (h : w &&& m = c)
    (hm : m.extractLsb' 12 4 = BitVec.allOnes 4 := by decide) (hc : opcodeOf c = op := by decide) :
    opcodeOf w = op := by
  rw [← hc, opcodeOf, opcodeOf, extractLsb'_of_and_eq h hm]

/-- Words that agree under a mask agree in a field that it covers. -/
theorem extractLsb'_congr {v w m : Word} {lo n : Nat} (h : v &&& m = w &&& m)
    (hm : m.extractLsb' lo n = BitVec.allOnes n := by decide) : w.extractLsb' lo n = v.extractLsb' lo n :=
  (extractLsb'_of_and_eq h.symm hm).trans (extractLsb'_of_and_eq rfl hm).symm

theorem regField_congr {v w m : Word} {lo : Nat} (h : v &&& m = w &&& m)
    (hm : m.extractLsb' lo 3 = BitVec.allOnes 3 := by decide) : regField w lo = regField v lo :=
  congrArg Reg.ofBits (extractLsb'_congr h hm)

/-- Words that agree under a mask agree in a bit that it covers. -/
theorem getLsbD_congr {v w m : Word} {i : Nat} (h : v &&& m = w &&& m) (hm : m.getLsbD i = true := by decide) :
    w.getLsbD i = v.getLsbD i :=
  (getLsbD_of_and_eq h.symm hm).trans (getLsbD_of_and_eq rfl hm).symm

end Sys2Proof
end

section
/-! The encoder and the decoder undo each other, the decoder reads the bits of rule R66 and no others, and it follows the
opcode table (rules R62-R67, R70-R72). -/

namespace Sys2Proof.Machine

/-! ### The two forms of a handler with a mode bit (rules R100-R103, R112, R113) -/

theorem decode_of_add_register {ir : Word} (hop : opcodeOf ir = .add) (hmode : ir.getLsbD 5 = false) :
    decode ir = .addR (regField ir 9) (regField ir 6) (regField ir 0) :=
  addRegisterAddsAndSetsFlags.1 ir hop hmode

theorem decode_of_add_immediate {ir : Word} (hop : opcodeOf ir = .add) (hmode : ir.getLsbD 5 = true) :
    decode ir = .addI (regField ir 9) (regField ir 6) (imm5Field ir) :=
  addImmediateAddsAndSetsFlags.1 ir hop hmode

theorem decode_of_and_register {ir : Word} (hop : opcodeOf ir = .and) (hmode : ir.getLsbD 5 = false) :
    decode ir = .andR (regField ir 9) (regField ir 6) (regField ir 0) :=
  andRegisterAndsAndSetsFlags.1 ir hop hmode

theorem decode_of_and_immediate {ir : Word} (hop : opcodeOf ir = .and) (hmode : ir.getLsbD 5 = true) :
    decode ir = .andI (regField ir 9) (regField ir 6) (imm5Field ir) :=
  andImmediateAndsAndSetsFlags.1 ir hop hmode

theorem decode_of_jsr_offset {ir : Word} (hop : opcodeOf ir = .jsr) (hmode : ir.getLsbD 11 = true) :
    decode ir = .jsr (offset11Field ir) :=
  jsrSavesReturnAddress.1 ir hop hmode

theorem decode_of_jsr_register {ir : Word} (hop : opcodeOf ir = .jsr) (hmode : ir.getLsbD 11 = false) :
    decode ir = .jsrr (regField ir 6) :=
  jsrrReadsBaseBeforeLink.1 ir hop hmode

/-! ### Decoding an encoding -/

theorem decodeVector_of_no_service {vector : BitVec 8} (h : isServiceVector vector = false) :
    decodeVector vector = .trap vector := by
  simp_all [decodeVector, isServiceVector]

theorem decode_encodeT8 (vector : BitVec 8) : decode (encodeT8 vector) = decodeVector vector := by
  rw [decode_of_opcode_trap (opcodeOf_encodeT8 vector), vectorField_encodeT8]

theorem decode_encodeBase_jmp (baseR : Reg) : decode (encodeBase .jmp baseR) = decodeJump baseR := by
  rw [decode_of_opcode_jmp (opcodeOf_encodeBase .jmp baseR)]
  simp

/-- Settles O15: the handler of an encoding is that of its format, and each operand is read from its own place. -/
theorem decodeEncodeRoundTrip : Obligations.DecodeEncodeRoundTrip := by
  intro i hwf
  cases i with
  | addR | addI => rw [encode, decode_of_opcode_add (by simp)]; simp
  | andR | andI => rw [encode, decode_of_opcode_and (by simp)]; simp
  | not => rw [encode, decode_of_opcode_not (by simp)]; simp
  | br => rw [encode, decode_of_opcode_br (by simp)]; simp
  | jsr | jsrr => rw [encode, decode_of_opcode_jsr (by simp)]; simp
  | ld => rw [encode, decode_of_opcode_ld (by simp)]; simp
  | ldi => rw [encode, decode_of_opcode_ldi (by simp)]; simp
  | ldr => rw [encode, decode_of_opcode_ldr (by simp)]; simp
  | lea => rw [encode, decode_of_opcode_lea (by simp)]; simp
  | st => rw [encode, decode_of_opcode_st (by simp)]; simp
  | sti => rw [encode, decode_of_opcode_sti (by simp)]; simp
  | str => rw [encode, decode_of_opcode_str (by simp)]; simp
  | jmp baseR =>
    have hne : baseR ≠ .r7 := bne_iff_ne.1 hwf
    rw [encode, decode_encodeBase_jmp, decodeJump, if_neg hne]
  | ret => exact decode_encodeBase_jmp .r7
  | trap vector =>
    have hno : isServiceVector vector = false := by simpa [Instr.wellFormed] using hwf
    rw [encode, decode_encodeT8, decodeVector_of_no_service hno]
  | getc | out | puts | in_ | putsp | halt => exact decode_encodeT8 _
  | rti | reserved => decide

/-! ### Encoding what was decoded -/

/-- Both spellings of a jump have the same word and the same read bits (rule R72). -/
theorem encode_decodeJump (baseR : Reg) :
    encode (decodeJump baseR) = encodeBase .jmp baseR ∧ readBits (decodeJump baseR) = 0xF1C0 := by
  unfold decodeJump
  split
  case isTrue hlink => rw [hlink]; exact ⟨rfl, rfl⟩
  case isFalse => exact ⟨rfl, rfl⟩

/-- A service has the word of TRAP with its vector, and the same read bits (rule R72). -/
theorem encode_of_trapVector {i : Instr} {vector : BitVec 8} (h : trapVector i = some vector) :
    encode i = encodeT8 vector ∧ readBits i = 0xF0FF := by
  cases i with
  | trap | getc | out | puts | in_ | putsp | halt => cases h; exact ⟨rfl, rfl⟩
  | _ => cases h

/-- The encoder clears every bit that no handler reads, but in a word of NOT. -/
theorem encode_decode_eq {w : Word} (hnot : opcodeOf w ≠ .not) :
    encode (decode w) = w &&& readBits (decode w) := by
  cases hop : opcodeOf w with
  | add =>
    cases hmode : w.getLsbD 5 with
    | false => rw [decode_of_add_register hop hmode]; exact encodeR3_of_word hop hmode
    | true => rw [decode_of_add_immediate hop hmode]; exact encodeI5_of_word hop hmode
  | and =>
    cases hmode : w.getLsbD 5 with
    | false => rw [decode_of_and_register hop hmode]; exact encodeR3_of_word hop hmode
    | true => rw [decode_of_and_immediate hop hmode]; exact encodeI5_of_word hop hmode
  | jsr =>
    cases hmode : w.getLsbD 11 with
    | false => rw [decode_of_jsr_register hop hmode]; exact encodeBase_of_word_mode hop hmode
    | true => rw [decode_of_jsr_offset hop hmode]; exact encodeJ11_of_word hop hmode
  | br => rw [decode_of_opcode_br hop]; exact encodePc9_of_word hop
  | ld => rw [decode_of_opcode_ld hop, encode, regField_bits]; exact encodePc9_of_word hop
  | ldi => rw [decode_of_opcode_ldi hop, encode, regField_bits]; exact encodePc9_of_word hop
  | lea => rw [decode_of_opcode_lea hop, encode, regField_bits]; exact encodePc9_of_word hop
  | st => rw [decode_of_opcode_st hop, encode, regField_bits]; exact encodePc9_of_word hop
  | sti => rw [decode_of_opcode_sti hop, encode, regField_bits]; exact encodePc9_of_word hop
  | ldr => rw [decode_of_opcode_ldr hop]; exact encodeB6_of_word hop
  | str => rw [decode_of_opcode_str hop]; exact encodeB6_of_word hop
  | not => exact absurd hop hnot
  | rti => rw [decode_of_opcode_rti hop]; exact place_opcode_of_word hop
  | res => rw [decode_of_opcode_res hop]; exact place_opcode_of_word hop
  | jmp =>
    obtain ⟨hencode, hread⟩ := encode_decodeJump (regField w 6)
    rw [decode_of_opcode_jmp hop, hencode, hread]
    exact encodeBase_of_word hop
  | trap =>
    obtain ⟨hencode, hread⟩ := encode_of_trapVector (trapVector_decodeVector (vectorField w))
    rw [decode_of_opcode_trap hop, hencode, hread]
    exact encodeT8_of_word hop

/-- Settles O16: the decoder answers well-formed instructions only, and encoding one keeps the read bits, also where NOT
sets the others. -/
theorem encodeDecodeKeepsReadBits : Obligations.EncodeDecodeKeepsReadBits := by
  intro w
  refine ⟨decode_wellFormed w, (xor_and_eq_zero_iff _ _ _).2 ?_⟩
  by_cases hnot : opcodeOf w = .not
  · rw [decode_of_opcode_not hnot]
    exact encodeB6_ones_of_word hnot
  · rw [encode_decode_eq hnot, BitVec.and_assoc, BitVec.and_self]

/-! ### Bits that no handler reads -/

/-- Every handler is found by all four opcode bits. -/
theorem readBits_opcode (i : Instr) : (readBits i).extractLsb' 12 4 = BitVec.allOnes 4 := by
  cases i <;> dsimp only [readBits] <;> decide

/-- Where every bit is read the two words are one. -/
theorem decode_congr_of_read_all {v w : Word} (h : v &&& 0xFFFF = w &&& 0xFFFF) : decode w = decode v := by
  have hsame : v &&& BitVec.allOnes 16 = w &&& BitVec.allOnes 16 := h
  rw [BitVec.and_allOnes, BitVec.and_allOnes] at hsame
  rw [hsame]

/-- The register form of ADD and AND: the mode bit and the three registers (rules R63, R66). -/
theorem fields_congr_of_register_form {v w : Word} (h : v &&& 0xFFE7 = w &&& 0xFFE7) :
    w.getLsbD 5 = v.getLsbD 5 ∧ regField w 9 = regField v 9 ∧ regField w 6 = regField v 6 ∧
      regField w 0 = regField v 0 :=
  ⟨getLsbD_congr h, regField_congr h, regField_congr h, regField_congr h⟩

/-- Settles O17: the read bits cover the opcode, so both words have one handler, and every field it reads. -/
theorem decodeIgnoresUnreadBits : Obligations.DecodeIgnoresUnreadBits := by
  intro v w hxor
  have h := (xor_and_eq_zero_iff v w _).1 hxor
  have hw : opcodeOf w = opcodeOf v := congrArg Opcode.ofBits (extractLsb'_congr h (readBits_opcode _))
  cases hv : opcodeOf v with rw [hv] at hw
  | add =>
    cases hmode : v.getLsbD 5 with
    | false =>
      rw [decode_of_add_register hv hmode] at h ⊢
      obtain ⟨hsame, hdr, hsr1, hsr2⟩ := fields_congr_of_register_form h
      rw [decode_of_add_register hw (hsame.trans hmode), hdr, hsr1, hsr2]
    | true => rw [decode_of_add_immediate hv hmode] at h; exact decode_congr_of_read_all h
  | and =>
    cases hmode : v.getLsbD 5 with
    | false =>
      rw [decode_of_and_register hv hmode] at h ⊢
      obtain ⟨hsame, hdr, hsr1, hsr2⟩ := fields_congr_of_register_form h
      rw [decode_of_and_register hw (hsame.trans hmode), hdr, hsr1, hsr2]
    | true => rw [decode_of_and_immediate hv hmode] at h; exact decode_congr_of_read_all h
  | jsr =>
    cases hmode : v.getLsbD 11 with
    | false =>
      rw [decode_of_jsr_register hv hmode] at h ⊢
      replace h : v &&& 0xF9C0 = w &&& 0xF9C0 := h
      have hsame : w.getLsbD 11 = v.getLsbD 11 := getLsbD_congr h
      rw [decode_of_jsr_register hw (hsame.trans hmode), regField_congr h]
    | true => rw [decode_of_jsr_offset hv hmode] at h; exact decode_congr_of_read_all h
  | not =>
    rw [decode_of_opcode_not hv] at h ⊢
    replace h : v &&& 0xFFC0 = w &&& 0xFFC0 := h
    have hdr : regField w 9 = regField v 9 := regField_congr h
    have hsr : regField w 6 = regField v 6 := regField_congr h
    rw [decode_of_opcode_not hw, hdr, hsr]
  | jmp =>
    obtain ⟨_, hread⟩ := encode_decodeJump (regField v 6)
    rw [decode_of_opcode_jmp hv, hread] at h
    rw [decode_of_opcode_jmp hv, decode_of_opcode_jmp hw, regField_congr h]
  | trap =>
    obtain ⟨_, hread⟩ := encode_of_trapVector (trapVector_decodeVector (vectorField v))
    rw [decode_of_opcode_trap hv, hread] at h
    have hvector : vectorField w = vectorField v := extractLsb'_congr h
    rw [decode_of_opcode_trap hv, decode_of_opcode_trap hw, hvector]
  | rti => rw [decode_of_opcode_rti hv, decode_of_opcode_rti hw]
  | res => rw [decode_of_opcode_res hv, decode_of_opcode_res hw]
  | br => rw [decode_of_opcode_br hv] at h; exact decode_congr_of_read_all h
  | ld => rw [decode_of_opcode_ld hv] at h; exact decode_congr_of_read_all h
  | ldi => rw [decode_of_opcode_ldi hv] at h; exact decode_congr_of_read_all h
  | ldr => rw [decode_of_opcode_ldr hv] at h; exact decode_congr_of_read_all h
  | lea => rw [decode_of_opcode_lea hv] at h; exact decode_congr_of_read_all h
  | st => rw [decode_of_opcode_st hv] at h; exact decode_congr_of_read_all h
  | sti => rw [decode_of_opcode_sti hv] at h; exact decode_congr_of_read_all h
  | str => rw [decode_of_opcode_str hv] at h; exact decode_congr_of_read_all h

/-! ### The rows of the opcode table -/

/-- A JMP word that does not fit the row of RET has another base register than R7. -/
theorem decode_of_row_jmp {w : Word} (h : w &&& 0xF000 = 0xC000) (hret : w &&& 0xF1C0 ≠ 0xC1C0) :
    decode w = .jmp (regField w 6) := by
  have hop : opcodeOf w = .jmp := opcodeOf_of_row h
  have hbase : regField w 6 ≠ .r7 := fun h7 => hret (by rw [← encodeBase_of_word hop, h7]; decide)
  rw [decode_of_opcode_jmp hop, decodeJump, if_neg hbase]

theorem decode_of_row_ret {w : Word} (h : w &&& 0xF1C0 = 0xC1C0) : decode w = .ret := by
  have hbase : regField w 6 = .r7 := congrArg Reg.ofBits (extractLsb'_of_and_eq h)
  rw [decode_of_opcode_jmp (opcodeOf_of_row h), hbase]
  rfl

theorem decode_of_row_trap {w : Word} (h : w &&& 0xF000 = 0xF000) (hno : isServiceVector (vectorField w) = false) :
    decode w = .trap (vectorField w) := by
  rw [decode_of_opcode_trap (opcodeOf_of_row h), decodeVector_of_no_service hno]

/-- The row of a service fixes the whole vector. -/
theorem decode_of_row_service {w c : Word} {i : Instr} (h : w &&& 0xF0FF = c)
    (hc : opcodeOf c = .trap := by decide) (hi : decodeVector (vectorField c) = i := by decide) : decode w = i := by
  have hvector : vectorField w = vectorField c := extractLsb'_of_and_eq h
  have hop : opcodeOf w = .trap := opcodeOf_of_row h (by decide) hc
  rw [decode_of_opcode_trap hop, hvector, hi]

/-- Settles O18: each row fixes the opcode, and the mode bit or the vector where its handler has several forms. -/
theorem decodeFollowsOpcodeTable : Obligations.DecodeFollowsOpcodeTable := fun _ =>
  ⟨fun h => decode_of_add_register (opcodeOf_of_row h) (getLsbD_of_and_eq h),
    fun h => decode_of_add_immediate (opcodeOf_of_row h) (getLsbD_of_and_eq h),
    fun h => decode_of_and_register (opcodeOf_of_row h) (getLsbD_of_and_eq h),
    fun h => decode_of_and_immediate (opcodeOf_of_row h) (getLsbD_of_and_eq h),
    fun h => decode_of_opcode_not (opcodeOf_of_row h),
    fun h => decode_of_opcode_br (opcodeOf_of_row h),
    decode_of_row_jmp,
    fun h => decode_of_jsr_offset (opcodeOf_of_row h) (getLsbD_of_and_eq h),
    fun h => decode_of_jsr_register (opcodeOf_of_row h) (getLsbD_of_and_eq h),
    fun h => decode_of_opcode_ld (opcodeOf_of_row h),
    fun h => decode_of_opcode_ldi (opcodeOf_of_row h),
    fun h => decode_of_opcode_ldr (opcodeOf_of_row h),
    fun h => decode_of_opcode_lea (opcodeOf_of_row h),
    fun h => decode_of_opcode_st (opcodeOf_of_row h),
    fun h => decode_of_opcode_sti (opcodeOf_of_row h),
    fun h => decode_of_opcode_str (opcodeOf_of_row h),
    decode_of_row_trap,
    fun h => decode_of_opcode_rti (opcodeOf_of_row h),
    fun h => decode_of_opcode_res (opcodeOf_of_row h),
    decode_of_row_ret,
    fun h => decode_of_row_service h, fun h => decode_of_row_service h, fun h => decode_of_row_service h,
    fun h => decode_of_row_service h, fun h => decode_of_row_service h, fun h => decode_of_row_service h⟩

/-- Settles O19: the decoder run on each of the fourteen words. -/
theorem exampleWordsDecode : Obligations.ExampleWordsDecode :=
  ⟨by decide, by decide, by decide, by decide, by decide, by decide, by decide, by decide, by decide, by decide,
    by decide, by decide, by decide, by decide⟩

end Sys2Proof.Machine
end

section
/-! The cycle and the run state: a step runs the decoded instruction, always answers a next state, and halts only at HALT
(rules R30, R61, R170). -/

namespace Sys2Proof.Machine

/-! ### The cycle (rule R61) -/

/-- A machine that is HALTED or in an endless scan issues no cycle, so its step changes nothing. -/
theorem step_of_stopped {s : State} (h : s.run = .halted ∨ s.phase = .endlessScan) : step s = .next s := by
  rcases h with hrun | hphase
  · have hstopped : ¬ s.issuesCycle = true := by simp [s.issuesCycle_iff, hrun]
    exact if_neg hstopped
  · exact step_of_endlessScan hphase

/-- Settles O11: the step is the end of the cycle that the handler answers. -/
theorem stepRunsDecodedInstruction : Obligations.StepRunsDecodedInstruction := by
  refine ⟨fun s t i hrun hphase hdecode hexec => ?_, fun s => step_of_stopped⟩
  subst hdecode
  rw [step_of_exec (s.issuesCycle_iff.2 ⟨hrun, hphase⟩) hexec, State.endCycle_eq]

/-- Settles O12: every handler answers a next state, and so does a step without a cycle. -/
theorem stepAlwaysAnswersNext : Obligations.StepAlwaysAnswersNext := exists_step_next

/-! ### HALT (rule R30) -/

/-- A well-formed trap instruction is the one that the decoder gives its vector (log entry 9). -/
theorem eq_decodeVector_of_trapVector {i : Instr} {vector : BitVec 8} (hwf : i.wellFormed = true)
    (h : trapVector i = some vector) : i = decodeVector vector := by
  cases i with
  | trap v =>
    cases h
    have hno : isServiceVector vector = false := by simpa [Instr.wellFormed] using hwf
    exact (decodeVector_of_no_service hno).symm
  | getc | out | puts | in_ | putsp | halt => cases h; rfl
  | _ => cases h

/-- Among the decoded instructions only HALT changes the run state. -/
theorem ExecEffect.run_eq {i : Instr} {s t : State} (h : ExecEffect i s t) (hwf : i.wellFormed = true)
    (hhalt : i ≠ .halt) : t.run = s.run := by
  cases h with
  | result | jump | call | store | idle => rfl
  | service vector hvector =>
    have hne : vector ≠ 0x25 := fun hv => hhalt (by rw [eq_decodeVector_of_trapVector hwf hvector, hv]; rfl)
    exact s.trapDispatch_run hne

theorem run_of_halted {s : State} (h : s.run = .halted) (k : Nat) : Host.Core.run core k s = .next s := by
  induction k with
  | zero => rfl
  | succ k ih => rw [core_run_succ k s s (step_of_stopped (.inl h)), ih]

/-- Settles O14: a step that fetches another instruction than HALT keeps the run state, and a HALTED machine steps to
itself. -/
theorem haltedOnlyByHaltAndTerminal : Obligations.HaltedOnlyByHaltAndTerminal := by
  refine ⟨rfl, fun s t hstep hrun hhalted => ?entered, fun k s h => run_of_halted h k⟩
  case entered =>
    by_contra hhalt
    have hkept : t.run = s.run := by
      rcases step_effect hstep with ⟨_, rfl⟩ | ⟨u, _, heffect, rfl⟩
      · rfl
      · rw [State.endCycle_eq_withPc]
        exact heffect.run_eq (decode_wellFormed s.fetch) hhalt
    simp [hkept, hrun] at hhalted

end Sys2Proof.Machine
end

section
/-! The machine invariant: it holds at reset and every step keeps it, part by part (rules R24, R28, R31, R36). -/

namespace Sys2Proof.Machine

/-! ### Reset (rule R36) -/

/-- Settles O5: the memory of the reset state lists no word, and its registers are all zero. -/
theorem resetGivesSpecValues : Obligations.ResetGivesSpecValues :=
  ⟨rfl, rfl, fun _ => rfl, fun r => by cases r <;> rfl, rfl, rfl, rfl, rfl, rfl⟩

/-- Settles O6: the empty memory is canonical, no flag is set and nothing is buffered at a boundary. -/
theorem resetMeetsInvariant : Obligations.ResetMeetsInvariant :=
  ⟨Memory.wf_nil, .inl rfl, rfl⟩

/-! ### Memory -/

/-- Every handler keeps memory canonical. -/
theorem ExecEffect.mem_wf {i : Instr} {s t : State} (h : ExecEffect i s t) (hwf : Memory.wf s.mem = true) :
    Memory.wf t.mem = true := by
  cases h with
  | result | jump | call | idle => exact hwf
  | store a v => exact s.memWrite_wf a v hwf
  | service vector => rw [(s.trapDispatch_keeps vector).mem]; exact hwf

/-! ### COND -/

/-- A handler leaves COND as it was or sets it to a flag value. -/
theorem ExecEffect.cond_eq_or_flagValue {i : Instr} {s t : State} (h : ExecEffect i s t) :
    t.cond = s.cond ∨ FlagValue t.cond := by
  cases h with
  | result dr v => exact .inr (s.writeResult_cond dr v ▸ flagOf_cases v)
  | jump | call | store | idle => exact .inl rfl
  | service vector => exact .inl (s.trapDispatch_keeps vector).cond

theorem step_cond_eq_or_flagValue {s t : State} (h : step s = .next t) : t.cond = s.cond ∨ FlagValue t.cond := by
  rcases step_effect h with ⟨_, rfl⟩ | ⟨u, _, heffect, rfl⟩
  · exact .inl rfl
  · rw [State.endCycle_eq_withPc]
    exact heffect.cond_eq_or_flagValue

/-- Settles O28: a step writes no COND but a flag value; and a COND of 0x0000 meets no bit of BR's mask. -/
theorem flagValueOnceSetStays : Obligations.FlagValueOnceSetStays := by
  refine ⟨fun s t hstep hflag => ?stays, fun cond offset9 s hunset => ?notTaken⟩
  case stays =>
    rcases step_cond_eq_or_flagValue hstep with hsame | hset
    · exact hsame ▸ hflag
    · exact hset
  case notTaken =>
    have hmask : ¬ (zext cond &&& s.cond) ≠ 0 := by simp [hunset]
    rw [exec_br, if_neg hmask]
    rfl

/-! ### The output buffer -/

/-- The output buffer between two cycles, as far as the handler of `i` decides it: empty when the cycle of `i` does not
wait, and when it waits, empty for GETC and the prompt for IN. -/
inductive ConsoleFits (i : Instr) (t : State) : Prop where
  | complete (hphase : t.phase ≠ .inputWait) (hobuf : t.obuf = [])
  | getcWaits (hphase : t.phase = .inputWait) (hi : i = .getc) (hobuf : t.obuf = [])
  | inWaits (hphase : t.phase = .inputWait) (hi : i = .in_) (hobuf : t.obuf = Config.inPrompt)

/-- The console part of the invariant is that of the fetched instruction. -/
theorem consoleConsistent_iff (s : State) : ConsoleConsistent s ↔ ConsoleFits (decode s.fetch) s := by
  cases hphase : s.phase with
  | boundary | endlessScan =>
    simp only [ConsoleConsistent, hphase]
    refine ⟨fun hobuf => .complete (by simp [hphase]) hobuf, fun h => ?_⟩
    cases h with
    | complete _ hobuf => exact hobuf
    | getcWaits hwait | inWaits hwait => simp [hphase] at hwait
  | inputWait =>
    simp only [ConsoleConsistent, hphase]
    constructor
    · rintro (⟨hgetc, hobuf⟩ | ⟨hin, hobuf⟩)
      · exact .getcWaits hphase hgetc hobuf
      · exact .inWaits hphase hin hobuf
    · intro h
      cases h with
      | complete hno => exact absurd hphase hno
      | getcWaits _ hgetc hobuf => exact .inl ⟨hgetc, hobuf⟩
      | inWaits _ hin hobuf => exact .inr ⟨hin, hobuf⟩

/-- Only the buffer and the phase matter. -/
theorem ConsoleFits.of_same {i : Instr} {s t : State} (h : ConsoleFits i s) (hphase : t.phase = s.phase)
    (hobuf : t.obuf = s.obuf) : ConsoleFits i t := by
  cases h with
  | complete hno hempty => exact .complete (hphase ▸ hno) (hobuf.trans hempty)
  | getcWaits hwait hi hempty => exact .getcWaits (hphase.trans hwait) hi (hobuf.trans hempty)
  | inWaits hwait hi hprompt => exact .inWaits (hphase.trans hwait) hi (hobuf.trans hprompt)

/-- The buffer is empty but for a waiting IN. -/
theorem ConsoleFits.obuf_eq_nil {i : Instr} {s : State} (h : ConsoleFits i s) (hi : i ≠ .in_) : s.obuf = [] := by
  cases h with
  | complete _ hobuf | getcWaits _ _ hobuf => exact hobuf
  | inWaits _ hin => exact absurd hin hi

/-- An instruction that is neither GETC nor IN does not wait. -/
theorem ConsoleFits.phase_ne_wait {i : Instr} {s : State} (h : ConsoleFits i s) (hgetc : i ≠ .getc) (hin : i ≠ .in_) :
    s.phase ≠ .inputWait := by
  cases h with
  | complete hphase => exact hphase
  | getcWaits _ hi => exact absurd hi hgetc
  | inWaits _ hi => exact absurd hi hin

/-- With its prompt written once, an IN has exactly the prompt in the buffer. -/
theorem ConsoleFits.promptOnce_obuf {i : Instr} {s : State} (h : ConsoleFits i s) (hi : i = .in_) :
    s.promptOnce.obuf = Config.inPrompt := by
  cases h with
  | complete hphase hobuf => rw [s.promptOnce_of_no_wait hphase, State.withObuf_obuf, hobuf, List.nil_append]
  | getcWaits _ hgetc => exact absurd (hgetc.symm.trans hi) (by decide)
  | inWaits hphase _ hobuf => rw [s.promptOnce_of_wait hphase, hobuf]

theorem ConsoleFits.serviceGetc {s : State} (h : ConsoleFits .getc s) : ConsoleFits .getc s.serviceGetc := by
  have hobuf : s.obuf = [] := h.obuf_eq_nil (by decide)
  rcases s.serviceGetc_cases with ⟨_, hs⟩ | ⟨b, rest, _, hs⟩ <;> rw [hs]
  · exact .getcWaits rfl rfl hobuf
  · exact .complete nofun hobuf

theorem ConsoleFits.serviceIn {s : State} (h : ConsoleFits .in_ s) : ConsoleFits .in_ s.serviceIn := by
  rcases s.serviceIn_cases with ⟨_, hs⟩ | ⟨b, rest, _, hs⟩ <;> rw [hs]
  · exact .inWaits rfl rfl (h.promptOnce_obuf rfl)
  · exact .complete nofun rfl

theorem State.serviceString_consoleFits {i : Instr} {s : State} (chars : Word → List Byte)
    (hphase : s.phase ≠ .inputWait) (hobuf : s.obuf = []) : ConsoleFits i (s.serviceString chars) := by
  rcases s.serviceString_cases chars with ⟨_, hs⟩ | ⟨ws, _, hs⟩ <;> rw [hs]
  · exact .complete nofun hobuf
  · exact .complete hphase rfl

/-- Every service leaves the buffer as its instruction may: empty after a flush, and the prompt while IN waits. -/
theorem ConsoleFits.trapDispatch {i : Instr} {s : State} {vector : BitVec 8} (h : ConsoleFits i s)
    (hi : i = decodeVector vector) : ConsoleFits i (s.trapDispatch vector) := by
  rcases s.trapDispatch_cases vector with
    ⟨rfl, hs⟩ | ⟨rfl, hs⟩ | ⟨rfl, hs⟩ | ⟨rfl, hs⟩ | ⟨rfl, hs⟩ | ⟨rfl, hs⟩ | ⟨_, hs⟩ <;> rw [hs] <;> subst hi
  · exact ConsoleFits.serviceGetc h
  · exact .complete (h.phase_ne_wait (by decide) (by decide)) rfl
  · exact State.serviceString_consoleFits charOfWord (h.phase_ne_wait (by decide) (by decide))
      (h.obuf_eq_nil (by decide))
  · exact ConsoleFits.serviceIn h
  · exact State.serviceString_consoleFits charsOfWord (h.phase_ne_wait (by decide) (by decide))
      (h.obuf_eq_nil (by decide))
  · exact .complete (h.phase_ne_wait (by decide) (by decide)) rfl
  · exact h

/-- Only a trap service reaches the buffer or the phase. -/
theorem ExecEffect.consoleFits {i : Instr} {s t : State} (heffect : ExecEffect i s t) (hwf : i.wellFormed = true)
    (h : ConsoleFits i s) : ConsoleFits i t := by
  cases heffect with
  | result | jump | call | store | idle => exact h.of_same rfl rfl
  | service vector hvector => exact h.trapDispatch (eq_decodeVector_of_trapVector hwf hvector)

/-- The end of a cycle that waits is at the instruction that waits, because GETC and IN store nothing. -/
theorem ConsoleFits.endCycle {s u : State} (h : ConsoleFits (decode s.fetch) u)
    (hmem : isStore (decode s.fetch) = false → u.mem = s.mem) : ConsoleConsistent (u.endCycle s.pc) := by
  rw [consoleConsistent_iff, State.endCycle_eq]
  split
  case isTrue hdone =>
    cases h with
    | complete hphase hobuf => exact .complete hphase hobuf
    | getcWaits hwait | inWaits hwait => simp [hdone] at hwait
  case isFalse =>
    have hfetch (hstore : isStore (decode s.fetch) = false) : (u.withPc s.pc).fetch = s.fetch :=
      congrArg (Memory.readAt · s.pc.toNat) (hmem hstore)
    cases h with
    | complete hphase hobuf => exact .complete hphase hobuf
    | getcWaits hwait hi hobuf => exact .getcWaits hwait ((congrArg decode (hfetch (by rw [hi]; rfl))).trans hi) hobuf
    | inWaits hwait hi hobuf => exact .inWaits hwait ((congrArg decode (hfetch (by rw [hi]; rfl))).trans hi) hobuf

/-! ### The invariant -/

/-- Settles O13: each part of the invariant is kept by the handler, and the beginning and end of a cycle touch PC
only. -/
theorem stepKeepsInvariant : Obligations.StepKeepsInvariant := by
  intro s t hinv hstep
  have hcond : CondLegal t := by
    rcases step_cond_eq_or_flagValue hstep with hsame | hset
    · rw [CondLegal, hsame]
      exact hinv.cond
    · exact .inr hset
  rcases step_effect hstep with ⟨_, rfl⟩ | ⟨u, _, heffect, rfl⟩
  · exact hinv
  · have hmem : Memory.wf u.mem = true := heffect.mem_wf hinv.mem
    have hbegin : ConsoleFits (decode s.fetch) s.beginCycle :=
      ((consoleConsistent_iff s).1 hinv.console).of_same rfl rfl
    have hend : ConsoleFits (decode s.fetch) u := heffect.consoleFits (decode_wellFormed s.fetch) hbegin
    exact ⟨by rw [State.endCycle_eq_withPc]; exact hmem, hcond, hend.endCycle heffect.mem_eq⟩

end Sys2Proof.Machine
end

section
/-! Booting from images: which lists of images boot, and the machine that does (rules R190-R195). -/

namespace Sys2Proof.Machine

/-- An odd number of bytes is no whole number of words. -/
theorem imageWords_eq_none (image : List Byte) (hodd : image.length % 2 = 1) : imageWords image = none := by
  induction image using imageWords.induct with
  | case1 => cases hodd
  | case2 => rfl
  | case3 hi lo bs ih =>
    have hlen : (hi :: lo :: bs).length = bs.length + 2 := rfl
    rw [imageWords, ih (by omega), Option.map_none]

/-- An image of an odd number of bytes, or without an origin word, does not load (entry I11). -/
theorem loadImage_eq_none (m : Memory) {image : List Byte} (hbad : image.length % 2 = 1 ∨ image.length = 0) :
    loadImage m image = none := by
  rcases hbad with hodd | hempty
  · rw [loadImage, imageWords_eq_none image hodd]
  · rw [List.length_eq_zero_iff.1 hempty]
    rfl

/-- One image that does not load is enough for none to be applied (rule R195). -/
theorem loadImages_eq_none (m : Memory) {images : List (List Byte)} {image : List Byte} (hmem : image ∈ images)
    (hbad : ∀ m' : Memory, loadImage m' image = none) : loadImages m images = none := by
  induction images generalizing m with
  | nil => cases hmem
  | cons first rest ih =>
    rw [loadImages_cons]
    rcases List.mem_cons.1 hmem with rfl | hrest
    · rw [hbad, Option.bind_none]
    · exact Option.bind_eq_none_iff.2 fun m' _ => ih m' hrest

/-- Images of whole words, each with an origin, all load. -/
theorem loadImages_eq_some (m : Memory) (images : List (List Byte))
    (hgood : ∀ image : List Byte, image ∈ images → image.length % 2 = 0 ∧ 2 ≤ image.length) :
    ∃ m' : Memory, loadImages m images = some m' := by
  induction images generalizing m with
  | nil => exact ⟨m, rfl⟩
  | cons first rest ih =>
    obtain ⟨heven, hlen⟩ := hgood first List.mem_cons_self
    obtain ⟨ws, hfirst, _⟩ := loadImage_eq_some m heven hlen
    rw [loadImages_cons, hfirst, Option.bind_some]
    exact ih _ fun image himage => hgood image (List.mem_cons_of_mem _ himage)

/-- Applying the images in order is the fold of the loader over the list (rule R192, decision D11). -/
theorem loadImages_eq_foldlM (m : Memory) (images : List (List Byte)) :
    loadImages m images = images.foldlM loadImage m := by
  induction images generalizing m with
  | nil => rfl
  | cons first rest ih =>
    rw [loadImages_cons, List.foldlM_cons]
    exact congrArg (loadImage m first).bind (funext ih)

/-- A list of one or more images boots exactly as its images load (rules R192, R194). -/
theorem State.boot_of_ne_nil {images : List (List Byte)} (hne : images ≠ []) (input : List Byte) :
    State.boot images input = (loadImages State.reset.mem images).map (State.launch · input) := by
  cases images with
  | nil => exact absurd rfl hne
  | cons => rfl

/-- Settles O9: one bad image stops the loading, and whole words with an origin always load. -/
theorem bootFailsOnBadImage : Obligations.BootFailsOnBadImage := by
  refine ⟨fun _ => rfl, fun images input image hmem hbad => ?fails, fun images input hne hgood => ?boots⟩
  case fails =>
    have hload := loadImages_eq_none State.reset.mem hmem fun m => loadImage_eq_none m hbad
    rw [State.boot_of_ne_nil (List.ne_nil_of_mem hmem), hload, Option.map_none]
  case boots =>
    obtain ⟨m, hload⟩ := loadImages_eq_some State.reset.mem images hgood
    exact ⟨State.launch m input, by rw [State.boot_of_ne_nil hne, hload, Option.map_some]⟩

/-- A launch on a canonical memory meets the invariant. -/
theorem State.launch_inv {m : Memory} (input : List Byte) (hwf : Memory.wf m = true) : Inv (State.launch m input) :=
  ⟨hwf, .inl rfl, rfl⟩

/-- Settles O8: a booted machine is the launch of the memory that its images leave, which is canonical. -/
theorem bootMeetsInvariant : Obligations.BootMeetsInvariant := by
  intro images input s hboot
  obtain ⟨_, m, hload, rfl⟩ := State.boot_some images input s hboot
  have hwf : Memory.wf m = true := loadImages_wf images State.reset.mem m Memory.wf_nil hload
  have hfold : images.foldlM loadImage [] = some m := (loadImages_eq_foldlM [] images).symm.trans hload
  exact ⟨State.launch_inv input hwf, rfl, rfl, rfl, rfl, rfl, State.launch_reg m input, m, hfold, rfl, rfl⟩

end Sys2Proof.Machine
end
